-- ==== Sys2Proof/Config.lean ====
section
/-! DEFINITION. The fixed implementation parameters of spec/00_scope.md R5. Nothing here is state (R15), and there is
no free value: the spec leaves no value of this machine open. The two OPEN parameters of R5, PORT_BYTE_ORDER and
PORT_PROTOCOL, are read by no rule and stand nowhere in the model (assumption log 9). -/

namespace Sys2Proof.Config

/-- `MINORD`: least order of a matrix operand (R5). -/
abbrev minOrder : Nat := 2

/-- `MAXORD`: greatest order of a matrix operand (R5). -/
abbrev maxOrder : Nat := 5

/-- `NS`: scalar registers (R5). -/
abbrev numScalars : Nat := 4

/-- `NV`: vector registers (R5). -/
abbrev numVectors : Nat := 4

/-- `NM`: matrix registers (R5). -/
abbrev numMatrices : Nat := 4

/-- `VWORDS`: data words of one vector register (R5). -/
abbrev vectorWords : Nat := 5

/-- `MWORDS`: data words of one matrix register (R5). -/
abbrev matrixWords : Nat := 25

/-- `PORT_AW`: width in bits of a port word index (R5). -/
abbrev portIndexWidth : Nat := 8

/-- Least legal modulus: `n` is legal iff `n ≥ 2` (R16). The greatest, `NMAX` = 2^31 - 1, is the greatest value a
signed word holds, so no test of its own is needed (R16: "that is iff `s32(MOD) ≥ 2`"). -/
abbrev minModulus : Int := 2

end Sys2Proof.Config
end

