-- ==== Sys2Proof/Word.lean ====
section
/-! DEFINITION. The machine word: 32 bits, bit 0 the least significant (spec/00_scope.md R7, EW = 32 of R5). -/

namespace Sys2Proof

/-- A word is `EW` = 32 bits (R7). `w[hi:lo]` is `w.extractLsb hi lo`. -/
abbrev Word := BitVec 32

end Sys2Proof
end

