-- ==== Sys2Proof/Syntax.lean ====
section
/-! DEFINITION. The command set as syntax: spec/30_encoding.md R39 to R42, R45, one constructor per row of
spec/opcode_table.json, and what decoding can answer (R43). -/

namespace Sys2Proof

/-- A register number, 0 to 3: the only operand form there is (R45). Which file it names (`S`, `V` or `M`) is fixed
by the command and the operand position (R42). -/
abbrev RegNum := Fin 4

/-- The six commands (R41). The destination stands first, as in the written form (R46). Register numbers are `Fin 4`,
so every term of this type is one of the 192 commands; well-formedness is a question about command WORDS
(WellFormed.lean). -/
inductive Instr where
  /-- `MODINV Sd, Sa` (R55). -/
  | modinv (d a : RegNum)
  /-- `MDET Sd, Ma` (R65). -/
  | mdet (d a : RegNum)
  /-- `MADJ Md, Ma` (R66). -/
  | madj (d a : RegNum)
  /-- `MINV Md, Ma` (R67). -/
  | minv (d a : RegNum)
  /-- `MMUL Md, Ma, Mb` (R70): `a` the left factor, `b` the right. -/
  | mmul (d a b : RegNum)
  /-- `MVMUL Vd, Ma, Vb` (R71): `b` the column vector. -/
  | mvmul (d a b : RegNum)
  deriving DecidableEq, Repr

/-- The fields of a command word (R39, R40). `rsv` is `w & 0xFFFCCC00`, all reserved bits in place. -/
structure CFields where
  op : BitVec 8
  rd : BitVec 2
  ra : BitVec 2
  rb : BitVec 2
  rsv : Word
  deriving DecidableEq, Repr

/-- Why a word is no command (R43, U6 of 93_implementation_defined.md). The engine does not tell these apart (R44):
the names are the model's, assumption log 6. -/
inductive IllegalReason where
  /-- A reserved bit is 1. -/
  | reservedBit
  /-- Opcode `0x00` or `0x07` to `0xFF`. -/
  | reservedOpcode
  /-- A one-source opcode with `rb ≠ 0`. -/
  | secondSourceSet
  deriving DecidableEq, Repr

/-- What decoding a word answers (R43). -/
inductive Decoded where
  | command (i : Instr)
  | illegal (why : IllegalReason)
  deriving DecidableEq, Repr

end Sys2Proof
end

