-- ==== Sys2Proof/WellFormed.lean ====
section
/-! DEFINITION. Which 32-bit words are command words: the three conditions of spec/30_encoding.md R39, R41 on the
word itself, said apart from the decoder (R43) so that the two can be compared. A term of `Instr` needs no check of its
own: its register numbers are `Fin 4`. -/

namespace Sys2Proof

/-- Bits [11:10], [15:14] and [31:18] "reserved, must be 0" (R39). -/
def reservedBitsZero (w : Word) : Bool := w &&& 0xFFFCCC00#32 == 0#32

/-- The opcode is one of `0x01` to `0x06` (R41). -/
def opcodeAssigned (w : Word) : Bool :=
  0x01#32 ≤ w &&& 0xFF#32 && w &&& 0xFF#32 ≤ 0x06#32

/-- `rb` "must be 0 in commands with one source" (R39), the opcodes `0x01` to `0x04` (R42). -/
def secondSourceAllowed (w : Word) : Bool :=
  0x05#32 ≤ w &&& 0xFF#32 || w &&& 0x30000#32 == 0#32

/-- The word is a legal command word: all three conditions. -/
def wellFormedWord (w : Word) : Bool :=
  reservedBitsZero w && opcodeAssigned w && secondSourceAllowed w

end Sys2Proof
end

