-- ==== Sys2Proof/Decode.lean ====
section
/-! DEFINITION. Decoding a command word (spec/30_encoding.md R40, R43) and, after it, the encoder and the assembler
text (R46). Both are total. -/

namespace Sys2Proof

/-- A 2-bit field as a register number, "taken as it stands" (R45). -/
def regNum (b : BitVec 2) : RegNum := b.toFin

/-- Field extraction (R40). -/
def fieldsOf (w : Word) : CFields where
  op := w.extractLsb 7 0
  rd := w.extractLsb 9 8
  ra := w.extractLsb 13 12
  rb := w.extractLsb 17 16
  rsv := w &&& 0xFFFCCC00#32

/-- `decode` of R43, its tests read top to bottom. -/
def decode (w : Word) : Decoded :=
  let f := fieldsOf w
  let d := regNum f.rd
  let a := regNum f.ra
  let b := regNum f.rb
  if f.rsv ≠ 0#32 then .illegal .reservedBit
  else if f.op = 0x01#8 ∧ f.rb = 0#2 then .command (.modinv d a)
  else if f.op = 0x02#8 ∧ f.rb = 0#2 then .command (.mdet d a)
  else if f.op = 0x03#8 ∧ f.rb = 0#2 then .command (.madj d a)
  else if f.op = 0x04#8 ∧ f.rb = 0#2 then .command (.minv d a)
  else if f.op = 0x05#8 then .command (.mmul d a b)
  else if f.op = 0x06#8 then .command (.mvmul d a b)
  else if 0x01#8 ≤ f.op ∧ f.op ≤ 0x04#8 then .illegal .secondSourceSet
  else .illegal .reservedOpcode

/-- The command a decoding answers, if it answers one. -/
def Decoded.toOption : Decoded → Option Instr
  | .command i => some i
  | .illegal _ => none

/-- The instruction the decoder reads from the `nbits` low bits of `w`. A command is one word (R39), delivered by value
(R37): there is no byte order to apply (R32). -/
def decodeTableWord (nbits w : Nat) : Option Instr :=
  (decode (BitVec.ofNat 32 (w % 2 ^ nbits))).toOption

/-- The opcode of a command (R41). -/
def opcodeOf : Instr → Word
  | .modinv _ _ => 0x01#32
  | .mdet _ _ => 0x02#32
  | .madj _ _ => 0x03#32
  | .minv _ _ => 0x04#32
  | .mmul _ _ _ => 0x05#32
  | .mvmul _ _ _ => 0x06#32

/-- A register number moved to its place in a command word (R46). -/
def regField (r : RegNum) (at' : Nat) : Word := BitVec.ofNat 32 r.val <<< at'

/-- The encoding of a written command: `op | (d << 8) | (a << 12) | (b << 16)`, "with `b = 0` where there is no third
operand" (R46). -/
def encode (i : Instr) : Word :=
  match i with
  | .modinv d a | .mdet d a | .madj d a | .minv d a =>
    opcodeOf i ||| regField d 8 ||| regField a 12
  | .mmul d a b | .mvmul d a b =>
    opcodeOf i ||| regField d 8 ||| regField a 12 ||| regField b 16

/-- The mnemonic in capitals (R41, R46). -/
def mnemonic : Instr → String
  | .modinv _ _ => "MODINV"
  | .mdet _ _ => "MDET"
  | .madj _ _ => "MADJ"
  | .minv _ _ => "MINV"
  | .mmul _ _ _ => "MMUL"
  | .mvmul _ _ _ => "MVMUL"

/-- A register as written: its file letter and its number (R46). -/
def regText (file : String) (r : RegNum) : String := file ++ toString r.val

/-- The written form of a command: mnemonic, a space, the operands separated by a comma and a space, destination
first (R46). -/
def assemblyText (i : Instr) : String :=
  match i with
  | .modinv d a => mnemonic i ++ " " ++ regText "S" d ++ ", " ++ regText "S" a
  | .mdet d a => mnemonic i ++ " " ++ regText "S" d ++ ", " ++ regText "M" a
  | .madj d a | .minv d a => mnemonic i ++ " " ++ regText "M" d ++ ", " ++ regText "M" a
  | .mmul d a b =>
    mnemonic i ++ " " ++ regText "M" d ++ ", " ++ regText "M" a ++ ", " ++ regText "M" b
  | .mvmul d a b =>
    mnemonic i ++ " " ++ regText "V" d ++ ", " ++ regText "M" a ++ ", " ++ regText "V" b

end Sys2Proof
end

