-- ==== Sys2Proof/Machine/Arith.lean ====
section
/-! DEFINITION. Scalar modular arithmetic over the integers, exact throughout: spec/40_scalar_modular.md R48 to R53. -/

namespace Sys2Proof.Machine

/-- `reduce(x, n) = x − n · (x div n)`, `div` the floor quotient (R49, R6). Used with `n ≥ 2` only. -/
def reduce (x n : Int) : Int := x - n * Int.fdiv x n

/-- `gcd(a, b)`: the greatest positive integer that divides both (R51). -/
def gcdOf (a b : Int) : Int := (Int.gcd a b : Nat)

/-- The loop of the reference algorithm (R53): while `r1 ≠ 0`, replace `(r0, r1)` by `(r1, r0 − q·r1)` and `(t0, t1)` by
`(t1, t0 − q·t1)`, `q` the floor quotient. It ends with `(r0, t0)`. `fuel` bounds the rounds: `r1` strictly decreases,
so any fuel above `r1` is enough (assumption log 5). -/
def egcdLoop : Nat → Int → Int → Int → Int → Int × Int
  | 0, r0, _, t0, _ => (r0, t0)
  | fuel + 1, r0, r1, t0, t1 =>
    if r1 = 0 then (r0, t0)
    else
      let q := Int.fdiv r0 r1
      egcdLoop fuel r1 (r0 - q * r1) t1 (t0 - q * t1)

/-- The extended Euclidean algorithm on `(n, reduce(a, n))` with `(t0, t1) = (0, 1)` (R53): the pair `(r0, t0)` after
the loop. -/
def egcd (a n : Int) : Int × Int :=
  egcdLoop n.toNat n (reduce a n) 0 1

/-- `egcd_inverse(a, n)` as R53 writes it: `none` stands for NotInvertible. -/
def egcdInverse (a n : Int) : Option Int :=
  let e := egcd a n
  if e.1 ≠ 1 then none else some (reduce e.2 n)

/-- `modInverse(a, n)` (R52): NotInvertible (`none`) unless `gcd(reduce(a, n), n) = 1`, else the `b` in `[0, n)` with
`reduce(reduce(a, n) · b, n) = 1`, found by the algorithm of R53. -/
def modInverse (a n : Int) : Option Int :=
  if gcdOf (reduce a n) n ≠ 1 then none else some (reduce (egcd a n).2 n)

end Sys2Proof.Machine
end

