-- ==== Sys2Proof/Machine/MatrixArith.lean ====
section
/-! DEFINITION. Matrices and vectors as values over the integers, and the functions on them:
spec/41_matrix_unary.md R56 to R62, spec/42_matrix_products.md R68, R69. Indexes start at 0 (R6). -/

namespace Sys2Proof.Machine

/-- A matrix value (R56): entry `i j`, row `i`, column `j`. The order `m` is passed beside it; entries outside
`0 ≤ i, j < m` are no part of the value and no function below reads one (assumption log 4). -/
abbrev IntMatrix := Nat → Nat → Int

/-- A column vector value (R23): entry `i`; the length is passed beside it. -/
abbrev IntVector := Nat → Int

/-- `Σ_{j=0}^{m−1} f(j)` (R6). -/
def sumTo : Nat → (Nat → Int) → Int
  | 0, _ => 0
  | m + 1, f => sumTo m f + f m

/-- `(−1)^k`: 1 for even `k`, −1 for odd `k` (R6). -/
def signOf (k : Nat) : Int := if k % 2 = 0 then 1 else -1

/-- `minor(X, i, j)`: row `i` and column `j` removed, the others in their order (R57). -/
def minor (X : IntMatrix) (i j : Nat) : IntMatrix := fun r c =>
  X (if i ≤ r then r + 1 else r) (if j ≤ c then c + 1 else c)

/-- `det(X)` of an order-`m` matrix: first-row cofactor expansion down to order 1 (R58). Order 0 is no order (R56); the
1 there is never used by a command (assumption log 4). -/
def det : Nat → IntMatrix → Int
  | 0, _ => 1
  | 1, X => X 0 0
  | m + 2, X => sumTo (m + 2) fun j => signOf j * X 0 j * det (m + 1) (minor X 0 j)

/-- `cof(X)` of an order-`m` matrix, `m ≥ 2` (R59). -/
def cof (m : Nat) (X : IntMatrix) : IntMatrix := fun i j =>
  signOf (i + j) * det (m - 1) (minor X i j)

/-- `adj(X)`: the transpose of the cofactor matrix (R60). -/
def adj (m : Nat) (X : IntMatrix) : IntMatrix := fun i j => cof m X j i

/-- `isInvertibleMod(X, n)` (R61). -/
def isInvertibleMod (m : Nat) (X : IntMatrix) (n : Int) : Bool :=
  gcdOf (reduce (det m X) n) n == 1

/-- `inverseMod(X, n)` (R62): `none` stands for NotInvertible. -/
def inverseMod (m : Nat) (X : IntMatrix) (n : Int) : Option IntMatrix :=
  match modInverse (reduce (det m X) n) n with
  | none => none
  | some dInv => some fun i j => reduce (adj m X i j * dInv) n

/-- `productMod(A, B, n)` for matrices of one order `m`, `A` the left factor (R68). -/
def productMod (m : Nat) (A B : IntMatrix) (n : Int) : IntMatrix := fun i j =>
  reduce (sumTo m fun k => A i k * B k j) n

/-- `vectorProductMod(A, x, n)` for `A` of order `m` and `x` a column of length `m` (R69). -/
def vectorProductMod (m : Nat) (A : IntMatrix) (x : IntVector) (n : Int) : IntVector := fun i =>
  reduce (sumTo m fun k => A i k * x k) n

end Sys2Proof.Machine
end

