-- ==== Sys2Proof/Machine/State.lean ====
section
/-! DEFINITION. The state of the machine: spec/10_state.md R15 to R26, whole, and the host's moves (R89) that drive it.
Plain data throughout. -/

namespace Sys2Proof.Machine

/-- A vector register: a length word and five data words (R18). -/
structure VectorReg where
  len : Word
  d : Vector Word Config.vectorWords
  deriving DecidableEq, Repr

/-- A matrix register: an order word and twenty-five data words (R19). -/
structure MatrixReg where
  ord : Word
  d : Vector Word Config.matrixWords
  deriving DecidableEq, Repr

/-- The outcome a command ends with (R73). Each stands for one code of `STATUS.ERR`. -/
inductive OutcomeCode where
  | ok
  | notInvertible
  | sizeMismatch
  | dimensionMismatch
  | illegalCommand
  | badOrder
  | badModulus
  deriving DecidableEq, Repr

/-- What the host can do (R89): reset (R84), `PortRead(idx)` (R29), `PortWrite(idx, w)` (R30), with `idx` in
`[0, 256)`. -/
inductive HostMove where
  | reset
  | read (idx : BitVec Config.portIndexWidth)
  | write (idx : BitVec Config.portIndexWidth) (w : Word)
  deriving DecidableEq, Repr

/-- The machine's faults: there are none. "There are no traps" (R79) and "Every command completes" (R88): nobody
raises a fault, so the type has no constructor (assumption log 7; safe). -/
inductive Fault : Type
  deriving DecidableEq, Repr

/-- Why the model gives an instruction no meaning. -/
inductive Refusal where
  /-- Raised only by an arm of `exec` that has no meaning yet: safe. No arm is left (assumption log 7). -/
  | notModelled (mnemonic : String)
  deriving DecidableEq, Repr

/-- The state: the 133 words and 5 bits of R15, and below them the two fields that are the model's own. -/
structure State where
  /-- `MOD` (R16). -/
  modulus : Word
  /-- `S[0..3]` (R17). -/
  scalars : Vector Word Config.numScalars
  /-- `V[0..3]` (R18). -/
  vectors : Vector VectorReg Config.numVectors
  /-- `M[0..3]` (R19). -/
  matrices : Vector MatrixReg Config.numMatrices
  /-- `STATUS.ERR` (R21). -/
  err : BitVec 4
  /-- `STATUS.CP` (R21). -/
  cp : Bool
  /-- MODEL'S OWN: the host's moves not yet made, next first. Not state of the engine (R20); assumption log 1. -/
  pending : List HostMove
  /-- MODEL'S OWN: the words `PortRead` has returned to the host, oldest first; assumption log 2. -/
  returned : List Word
  deriving DecidableEq, Repr

/-- A vector register at reset (R26). -/
def VectorReg.reset : VectorReg := { len := 0#32, d := Vector.replicate _ 0#32 }

/-- A matrix register at reset (R26). -/
def MatrixReg.reset : MatrixReg := { ord := 0#32, d := Vector.replicate _ 0#32 }

/-- The machine right after reset: R26, every value the spec's own. The host has made no move yet. -/
def State.reset : State where
  modulus := 0x0000001A#32
  scalars := Vector.replicate _ 0#32
  vectors := Vector.replicate _ VectorReg.reset
  matrices := Vector.replicate _ MatrixReg.reset
  err := 0#4
  cp := false
  pending := []
  returned := []

end Sys2Proof.Machine
end

