-- ==== Sys2Proof/Machine/Operands.lean ====
section
/-! DEFINITION. Reading operands: how a register's words enter a computation over the integers (spec/00_scope.md R7,
spec/10_state.md R16 to R19, R22, R23). -/

namespace Sys2Proof.Machine

/-- `s32(w)`: the word as a two's complement signed integer (R7). -/
def s32 (w : Word) : Int := w.toInt

/-- `u32(w)`: the word as an unsigned integer (R7). -/
def u32 (w : Word) : Nat := w.toNat

/-- `word(v)`: the word with `s32(word(v)) = v`, for `v` in `[−2^31, 2^31)` (R7). -/
def toWord (v : Int) : Word := BitVec.ofInt 32 v

/-- `n = s32(MOD)` (R16). -/
def modulusOf (s : State) : Int := s32 s.modulus

/-- `S[i]` read as a signed integer (R17, R8). -/
def scalarOf (s : State) (i : RegNum) : Int := s32 s.scalars[i]

/-- `u32(M[k].ord)` (R19). -/
def ordOf (s : State) (k : RegNum) : Nat := u32 s.matrices[k].ord

/-- `u32(V[k].len)` (R18). -/
def lenOf (s : State) (k : RegNum) : Nat := u32 s.vectors[k].len

/-- Data word `f` of a matrix register. Beyond the 25 words there is none; the 0 there is never read by a command
(assumption log 4). -/
def matrixWord (r : MatrixReg) (f : Nat) : Word :=
  if h : f < Config.matrixWords then r.d[f] else 0#32

/-- Data word `f` of a vector register; beyond the 5 words as above (assumption log 4). -/
def vectorWord (r : VectorReg) (f : Nat) : Word :=
  if h : f < Config.vectorWords then r.d[f] else 0#32

/-- The matrix an order-`m` reading of a register gives: entry `(i, j)` is data word `i·m + j` (R22). -/
def matrixValue (m : Nat) (r : MatrixReg) : IntMatrix := fun i j => s32 (matrixWord r (i * m + j))

/-- The vector a register holds: entry `i` is data word `i` (R23). -/
def vectorValue (r : VectorReg) : IntVector := fun i => s32 (vectorWord r i)

/-- `mat(k)` (R22), of order `ordOf s k`. -/
def matOf (s : State) (k : RegNum) : IntMatrix := matrixValue (ordOf s k) s.matrices[k]

/-- `vec(k)` (R23), of length `lenOf s k`. -/
def vecOf (s : State) (k : RegNum) : IntVector := vectorValue s.vectors[k]

end Sys2Proof.Machine
end

