-- ==== Sys2Proof/Machine/Flags.lean ====
section
/-! DEFINITION. `STATUS`: the outcome codes, the coprimality flag and the word the port reads
(spec/10_state.md R21, spec/60_exceptions.md R73). -/

namespace Sys2Proof.Machine

/-- The number of an outcome in `STATUS.ERR` (R73). -/
def OutcomeCode.code : OutcomeCode → BitVec 4
  | .ok => 0#4
  | .notInvertible => 1#4
  | .sizeMismatch => 2#4
  | .dimensionMismatch => 3#4
  | .illegalCommand => 4#4
  | .badOrder => 5#4
  | .badModulus => 6#4

/-- The coprimality test `gcd(x, n) = 1` that `STATUS.CP` records (R21). -/
def coprimeFlag (x n : Int) : Bool := gcdOf x n == 1

/-- The word a read of `STATUS` returns: `(CP << 8) | ERR` (R21, R29). -/
def statusWord (s : State) : Word :=
  ((BitVec.ofBool s.cp).setWidth 32 <<< 8) ||| s.err.setWidth 32

end Sys2Proof.Machine
end

