-- ==== Sys2Proof/Machine/Ops.lean ====
section
/-! DEFINITION. The shared operations on the state: the tests a command makes before it computes
(spec/60_exceptions.md R75), the writes it makes when it succeeds (spec/10_state.md R17, R22, R23), and completing with
an outcome (R76), which is what this machine has in the place of taking an exception (R8, R79). -/

namespace Sys2Proof.Machine

/-- The answer of a meaning: a command never stops the machine (R72). -/
abbrev Answer := Host.Outcome State Fault Refusal

/-- `n` is legal iff `s32(MOD) ≥ 2` (R16). -/
def modulusLegal (s : State) : Bool := Config.minModulus ≤ modulusOf s

/-- The order word of `M[k]` is legal iff `2 ≤ u32(M[k].ord) ≤ 5` (R19, R64). -/
def orderLegal (s : State) (k : RegNum) : Bool :=
  Config.minOrder ≤ ordOf s k && ordOf s k ≤ Config.maxOrder

/-- `complete(code)`: end the command with outcome `code`, writing `STATUS.ERR` (R8, R76). No control is transferred and
nothing is saved (R79). -/
def complete (code : OutcomeCode) (s : State) : Answer := .next { s with err := code.code }

/-- `STATUS.CP <- v` (R76). -/
def setCoprime (v : Bool) (s : State) : State := { s with cp := v }

/-- `S[d] <- v` writes `word(v)` (R8). -/
def writeScalar (d : RegNum) (v : Int) (s : State) : State :=
  { s with scalars := s.scalars.set d (toWord v) }

/-- A matrix register after an order-`m` value is written to it: the order word is `word(m)`, data word `f` is entry
`(f div m, f mod m)` for `f < m²`, and the other data words are as they were (R22). -/
def MatrixReg.withValue (m : Nat) (Y : IntMatrix) (r : MatrixReg) : MatrixReg where
  ord := toWord m
  d := Vector.ofFn fun f =>
    if f.val < m * m then toWord (Y (f.val / m) (f.val % m)) else r.d[f]

/-- `mat(d) <- Y` for an order-`m` matrix `Y` (R22). -/
def writeMatrix (d : RegNum) (m : Nat) (Y : IntMatrix) (s : State) : State :=
  { s with matrices := s.matrices.set d (s.matrices[d].withValue m Y) }

/-- A vector register after a length-`m` value is written to it (R23). -/
def VectorReg.withValue (m : Nat) (y : IntVector) (r : VectorReg) : VectorReg where
  len := toWord m
  d := Vector.ofFn fun f => if f.val < m then toWord (y f.val) else r.d[f]

/-- `vec(d) <- y` for a length-`m` vector `y` (R23). -/
def writeVector (d : RegNum) (m : Nat) (y : IntVector) (s : State) : State :=
  { s with vectors := s.vectors.set d (s.vectors[d].withValue m y) }

/-- The reset event: every piece of the engine's state at its reset value, whatever it was (R84, R26). The host's own
moves and what it has read stay (assumption log 3). -/
def resetEngine (s : State) : State :=
  { State.reset with pending := s.pending, returned := s.returned }

end Sys2Proof.Machine
end

