-- ==== Sys2Proof/Machine/MatrixProducts.lean ====
section
/-! DEFINITION. The product commands: `MMUL`, `MVMUL` (spec/42_matrix_products.md R70, R71). -/

namespace Sys2Proof.Machine

/-- `MMUL Md, Ma, Mb` (R70): `a` the left factor. `CP` is never written. -/
def execMmul (d a b : RegNum) (s : State) : Answer :=
  let n := modulusOf s
  let m := ordOf s a
  if !modulusLegal s then complete .badModulus s
  else if !orderLegal s a then complete .badOrder s
  else if ordOf s b ≠ m then complete .dimensionMismatch s
  else complete .ok (writeMatrix d m (productMod m (matOf s a) (matOf s b) n) s)

/-- `MVMUL Vd, Ma, Vb` (R71): `b` the column vector. `CP` is never written. -/
def execMvmul (d a b : RegNum) (s : State) : Answer :=
  let n := modulusOf s
  let m := ordOf s a
  if !modulusLegal s then complete .badModulus s
  else if !orderLegal s a then complete .badOrder s
  else if lenOf s b ≠ m then complete .sizeMismatch s
  else complete .ok (writeVector d m (vectorProductMod m (matOf s a) (vecOf s b) n) s)

end Sys2Proof.Machine
end

