-- ==== Sys2Proof/Machine/MatrixUnary.lean ====
section
/-! DEFINITION. The one-matrix commands: `MDET`, `MADJ`, `MINV` (spec/41_matrix_unary.md R64 to R67). -/

namespace Sys2Proof.Machine

/-- `MDET Sd, Ma` (R65). -/
def execMdet (d a : RegNum) (s : State) : Answer :=
  let n := modulusOf s
  if !modulusLegal s then complete .badModulus s
  else if !orderLegal s a then complete .badOrder s
  else
    let v := reduce (det (ordOf s a) (matOf s a)) n
    complete .ok (setCoprime (coprimeFlag v n) (writeScalar d v s))

/-- `MADJ Md, Ma` (R66). `CP` is never written. -/
def execMadj (d a : RegNum) (s : State) : Answer :=
  let n := modulusOf s
  let m := ordOf s a
  if !modulusLegal s then complete .badModulus s
  else if !orderLegal s a then complete .badOrder s
  else complete .ok (writeMatrix d m (fun i j => reduce (adj m (matOf s a) i j) n) s)

/-- `MINV Md, Ma` (R67). -/
def execMinv (d a : RegNum) (s : State) : Answer :=
  let n := modulusOf s
  let m := ordOf s a
  if !modulusLegal s then complete .badModulus s
  else if !orderLegal s a then complete .badOrder s
  else
    match inverseMod m (matOf s a) n with
    | none => complete .notInvertible (setCoprime false s)
    | some Y => complete .ok (setCoprime true (writeMatrix d m Y s))

end Sys2Proof.Machine
end

