-- ==== Sys2Proof/Machine/Scalar.lean ====
section
/-! DEFINITION. The scalar command: `MODINV` (spec/40_scalar_modular.md R55). -/

namespace Sys2Proof.Machine

/-- `MODINV Sd, Sa` (R55). -/
def execModinv (d a : RegNum) (s : State) : Answer :=
  let n := modulusOf s
  if !modulusLegal s then complete .badModulus s
  else
    let x := reduce (scalarOf s a) n
    match modInverse x n with
    | none => complete .notInvertible (setCoprime false s)
    | some b => complete .ok (setCoprime true (writeScalar d b s))

end Sys2Proof.Machine
end

