-- ==== Sys2Proof/Machine/Dispatch.lean ====
section
/-! DEFINITION. One arm per command (spec/30_encoding.md R41). -/

namespace Sys2Proof.Machine

def exec (i : Instr) (s : State) : Host.Outcome State Fault Refusal :=
  match i with
  | .modinv d a => Sys2Proof.Machine.execModinv d a s
  | .mdet d a => Sys2Proof.Machine.execMdet d a s
  | .madj d a => Sys2Proof.Machine.execMadj d a s
  | .minv d a => Sys2Proof.Machine.execMinv d a s
  | .mmul d a b => Sys2Proof.Machine.execMmul d a b s
  | .mvmul d a b => Sys2Proof.Machine.execMvmul d a b s

end Sys2Proof.Machine
end

