-- ==== Sys2Proof/Machine/Port.lean ====
section
/-! DEFINITION. The host port: the address map, the two transactions and serving one move of the host
(spec/20_memory.md R27 to R34, spec/30_encoding.md R44, spec/70_reset_and_hazards.md R84). -/

namespace Sys2Proof.Machine

/-- What a port word index names (R28). -/
inductive PortReg where
  | cmd
  | status
  | modulus
  | scalar (i : RegNum)
  | vectorLen (k : RegNum)
  | vectorData (k : RegNum) (i : Fin 5)
  | matrixOrd (k : RegNum)
  | matrixData (k : RegNum) (f : Fin 25)
  | reserved
  deriving DecidableEq, Repr

/-- The port map (R28): `V[k]` at `0x20 + 8k`, `M[k]` at `0x40 + 32k`, each its length or order word first. -/
def portReg (idx : BitVec 8) : PortReg :=
  let x := idx.toNat
  if x = 0x00 then .cmd
  else if x = 0x01 then .status
  else if x = 0x02 then .modulus
  else if h : 0x04 ≤ x ∧ x ≤ 0x07 then .scalar ⟨x - 0x04, by omega⟩
  else if h : 0x20 ≤ x ∧ x ≤ 0x3F then
    let k : RegNum := ⟨(x - 0x20) / 8, by omega⟩
    if (x - 0x20) % 8 = 0 then .vectorLen k
    else if h5 : (x - 0x20) % 8 ≤ 5 then .vectorData k ⟨(x - 0x20) % 8 - 1, by omega⟩
    else .reserved
  else if h : 0x40 ≤ x ∧ x ≤ 0xBF then
    let k : RegNum := ⟨(x - 0x40) / 32, by omega⟩
    if (x - 0x40) % 32 = 0 then .matrixOrd k
    else if h25 : (x - 0x40) % 32 ≤ 25 then .matrixData k ⟨(x - 0x40) % 32 - 1, by omega⟩
    else .reserved
  else .reserved

/-- The word index a register name stands for in a host script (R28, R47). The reserved indexes have no name: `0x03`
stands for them here and nothing uses it. -/
def PortReg.index : PortReg → BitVec 8
  | .cmd => 0x00#8
  | .status => 0x01#8
  | .modulus => 0x02#8
  | .scalar i => BitVec.ofNat 8 (0x04 + i.val)
  | .vectorLen k => BitVec.ofNat 8 (0x20 + 8 * k.val)
  | .vectorData k i => BitVec.ofNat 8 (0x21 + 8 * k.val + i.val)
  | .matrixOrd k => BitVec.ofNat 8 (0x40 + 32 * k.val)
  | .matrixData k f => BitVec.ofNat 8 (0x41 + 32 * k.val + f.val)
  | .reserved => 0x03#8

/-- The word a read of a port register returns (R29). -/
def PortReg.read (r : PortReg) (s : State) : Word :=
  match r with
  | .cmd => 0#32
  | .status => statusWord s
  | .modulus => s.modulus
  | .scalar i => s.scalars[i]
  | .vectorLen k => s.vectors[k].len
  | .vectorData k i => s.vectors[k].d[i]
  | .matrixOrd k => s.matrices[k].ord
  | .matrixData k f => s.matrices[k].d[f]
  | .reserved => 0#32

/-- `PortRead(idx)` returns one word and changes no state (R29). -/
def portRead (idx : BitVec 8) (s : State) : Word := (portReg idx).read s

/-- What a write to `CMD` does: decode the word and execute the command to completion (R20, R43). An illegal word writes
`STATUS.ERR` and nothing else (R44). -/
def executeCommand (w : Word) (s : State) : Answer :=
  match decode w with
  | .command i => exec i s
  | .illegal _ => complete .illegalCommand s

/-- The effect of writing `w` to a port register (R30). -/
def PortReg.write (r : PortReg) (w : Word) (s : State) : Answer :=
  match r with
  | .cmd => executeCommand w s
  | .status => .next s
  | .modulus => .next { s with modulus := w }
  | .scalar i => .next { s with scalars := s.scalars.set i w }
  | .vectorLen k => .next { s with vectors := s.vectors.set k { s.vectors[k] with len := w } }
  | .vectorData k i =>
    .next { s with vectors := s.vectors.set k { s.vectors[k] with d := s.vectors[k].d.set i w } }
  | .matrixOrd k => .next { s with matrices := s.matrices.set k { s.matrices[k] with ord := w } }
  | .matrixData k f =>
    .next { s with matrices := s.matrices.set k { s.matrices[k] with d := s.matrices[k].d.set f w } }
  | .reserved => .next s

/-- `PortWrite(idx, w)` (R30). -/
def portWrite (idx : BitVec 8) (w : Word) (s : State) : Answer := (portReg idx).write w s

/-- Serve one move of the host (R89): reset (R84), `PortRead`, whose word goes to the host (R29), `PortWrite` (R30). -/
def serve (move : HostMove) (s : State) : Answer :=
  match move with
  | .reset => .next (resetEngine s)
  | .read idx => .next { s with returned := s.returned ++ [portRead idx s] }
  | .write idx w => portWrite idx w s

end Sys2Proof.Machine
end

