-- ==== Sys2Proof/Machine/Step.lean ====
section
/-! DEFINITION. One step: the engine serves the host's next move (spec/20_memory.md R35, spec/70_reset_and_hazards.md
R89). There is no program counter and no fetch (spec/10_state.md R24): a command is the data of a write to `CMD`. -/

namespace Sys2Proof.Machine

/-- Serve the first pending move; with none the engine is idle "and keeps all state while idle" (R83). -/
def step (s : State) : Host.Outcome State Fault Refusal :=
  match s.pending with
  | [] => .next s
  | move :: rest => serve move { s with pending := rest }

/-- `s` with a write of the command word `w` to `CMD` as the host's very next move (R20, R30; assumption log 1). -/
def State.withFetchWord (s : State) (nbits w : Nat) : State :=
  { s with pending := .write 0x00#8 (BitVec.ofNat 32 (w % 2 ^ nbits)) :: s.pending }

end Sys2Proof.Machine
end

