-- ==== Sys2Proof/Safety.lean ====
section
/-! DEFINITION. The terms the claims use: what a legal status is, when a register holds a value, when two states give a
command the same operands, and what a run that never stops is. -/

namespace Sys2Proof.Machine

/-- What `STATUS` can hold: an outcome code 0 to 6 (R73), and `CP = 0` whenever the code is `NOT_INVERTIBLE`, so that
`0x101` is never read (R21, R76). -/
abbrev StatusLegal (s : State) : Prop := s.err.toNat ≤ 6 ∧ (s.err = 1#4 → s.cp = false)

/-- The two states agree on all 133 words and 5 bits of R15. -/
abbrev SameEngine (s t : State) : Prop :=
  s.modulus = t.modulus ∧ s.scalars = t.scalars ∧ s.vectors = t.vectors ∧ s.matrices = t.matrices ∧
    s.err = t.err ∧ s.cp = t.cp

/-- A matrix register holds the order-`m` matrix `Y` (R22). -/
abbrev HoldsMatrix (r : MatrixReg) (m : Nat) (Y : IntMatrix) : Prop :=
  u32 r.ord = m ∧ ∀ i < m, ∀ j < m, matrixValue m r i j = Y i j

/-- A vector register holds the length-`m` vector `y` (R23). -/
abbrev HoldsVector (r : VectorReg) (m : Nat) (y : IntVector) : Prop :=
  u32 r.len = m ∧ ∀ i < m, vectorValue r i = y i

/-- The data words of a matrix register that are no part of an order-`m` value are as before (R22). -/
abbrev MatrixLeftoverKept (r r' : MatrixReg) (m : Nat) : Prop :=
  ∀ f : Fin 25, m * m ≤ f.val → r'.d[f] = r.d[f]

/-- The data words of a vector register that are no part of a length-`m` value are as before (R23). -/
abbrev VectorLeftoverKept (r r' : VectorReg) (m : Nat) : Prop :=
  ∀ f : Fin 5, m ≤ f.val → r'.d[f] = r.d[f]

/-- Two matrix registers give a command the same operand: the same order word and the same significant words, the first
`m²` (R9, R22). -/
abbrev SameMatrix (r r' : MatrixReg) : Prop :=
  r.ord = r'.ord ∧ ∀ f : Fin 25, f.val < u32 r.ord * u32 r.ord → r.d[f] = r'.d[f]

/-- Two vector registers give a command the same operand (R9, R23). -/
abbrev SameVector (r r' : VectorReg) : Prop :=
  r.len = r'.len ∧ ∀ f : Fin 5, f.val < u32 r.len → r.d[f] = r'.d[f]

/-- Two states give the command `i` the same inputs: `MOD` and the source registers it names, and of those only the
significant words (R25, R72). -/
def SameInputs (i : Instr) (s s' : State) : Prop :=
  s.modulus = s'.modulus ∧
  match i with
  | .modinv _ a => s.scalars[a] = s'.scalars[a]
  | .mdet _ a => SameMatrix s.matrices[a] s'.matrices[a]
  | .madj _ a => SameMatrix s.matrices[a] s'.matrices[a]
  | .minv _ a => SameMatrix s.matrices[a] s'.matrices[a]
  | .mmul _ a b => SameMatrix s.matrices[a] s'.matrices[a] ∧ SameMatrix s.matrices[b] s'.matrices[b]
  | .mvmul _ a b => SameMatrix s.matrices[a] s'.matrices[a] ∧ SameVector s.vectors[b] s'.vectors[b]

/-- Two states hold the same result of the command `i` in its destination register (R25). -/
def SameResult (i : Instr) (t t' : State) : Prop :=
  match i with
  | .modinv d _ => t.scalars[d] = t'.scalars[d] ∧ t.cp = t'.cp
  | .mdet d _ => t.scalars[d] = t'.scalars[d] ∧ t.cp = t'.cp
  | .madj d _ => SameMatrix t.matrices[d] t'.matrices[d]
  | .minv d _ => SameMatrix t.matrices[d] t'.matrices[d] ∧ t.cp = t'.cp
  | .mmul d _ _ => SameMatrix t.matrices[d] t'.matrices[d]
  | .mvmul d _ _ => SameVector t.vectors[d] t'.vectors[d]

/-- A word index that names nothing (R31's list). -/
abbrev ReservedIndex (idx : BitVec 8) : Prop :=
  idx.toNat = 0x03 ∨ (0x08 ≤ idx.toNat ∧ idx.toNat ≤ 0x1F) ∨
  (idx.toNat ∈ [0x26, 0x27, 0x2E, 0x2F, 0x36, 0x37, 0x3E, 0x3F]) ∨
  (0x5A ≤ idx.toNat ∧ idx.toNat ≤ 0x5F) ∨ (0x7A ≤ idx.toNat ∧ idx.toNat ≤ 0x7F) ∨
  (0x9A ≤ idx.toNat ∧ idx.toNat ≤ 0x9F) ∨ (0xBA ≤ idx.toNat ∧ idx.toNat ≤ 0xBF) ∨ 0xC0 ≤ idx.toNat

/-- A run that never stops: however many steps are asked for, the machine answers a next state (R79, R88). -/
def NeverStops (s : State) : Prop := ∀ k : Nat, ∃ t, Host.Core.run Sys2Proof.core k s = .next t

end Sys2Proof.Machine
end

