-- ==== Sys2Proof/Certificates/Slice0/Obligations.lean ====
section
/-! DEFINITION. The statements for the provers. Each docstring names the rules of spec/ it formalises. -/

open Sys2Proof Sys2Proof.Machine

/-! ## Encoding -/

/-- R43, R46: decoding the word a command is written as gives that command back, for every command and all its register
numbers. -/
def Obligations.DecodeUndoesEncode : Prop :=
  ∀ i : Instr, decode (encode i) = .command i

/-- R39, R43, R46: no two words are the same command, and no bit of a legal word is ignored: a word that decodes to a
command is the word that command is written as. -/
def Obligations.EncodeUndoesDecode : Prop :=
  ∀ (w : Word) (i : Instr), decode w = .command i → encode i = w

/-- R39, R41 against R43: the words the decoder accepts are exactly those that meet the three conditions of the
format. -/
def Obligations.DecoderAcceptsExactlyTheWellFormedWords : Prop :=
  ∀ w : Word, wellFormedWord w = true ↔ ∃ i, decode w = .command i

/-- R40, R43, said in arithmetic on the word's number instead of bit fields: reserved bits first, then the opcode, then
`rb` of a one-source command; whatever is left is illegal. -/
def Obligations.WordsDecodeByTheirFields : Prop :=
  ∀ (w : Word) (rd ra rb : RegNum),
    rd.val = w.toNat / 256 % 4 → ra.val = w.toNat / 4096 % 4 → rb.val = w.toNat / 65536 % 4 →
    (w &&& 0xFFFCCC00#32 ≠ 0#32 → ∃ why, decode w = .illegal why) ∧
    (w &&& 0xFFFCCC00#32 = 0#32 →
      (w.toNat % 256 = 1 → rb = 0 → decode w = .command (.modinv rd ra)) ∧
      (w.toNat % 256 = 2 → rb = 0 → decode w = .command (.mdet rd ra)) ∧
      (w.toNat % 256 = 3 → rb = 0 → decode w = .command (.madj rd ra)) ∧
      (w.toNat % 256 = 4 → rb = 0 → decode w = .command (.minv rd ra)) ∧
      (w.toNat % 256 = 5 → decode w = .command (.mmul rd ra rb)) ∧
      (w.toNat % 256 = 6 → decode w = .command (.mvmul rd ra rb)) ∧
      (w.toNat % 256 = 0 ∨ 7 ≤ w.toNat % 256 ∨ (w.toNat % 256 ≤ 4 ∧ rb ≠ 0) → ∃ why, decode w = .illegal why))

/-- R42's match and mask columns: "A word `w` is the command of a row iff `w & mask = match`", for the six rows. -/
def Obligations.OpcodeTableRowsMatchTheDecoder : Prop :=
  ∀ w : Word,
    ((∃ d a, decode w = .command (.modinv d a)) ↔ w &&& 0xFFFFCCFF#32 = 0x00000001#32) ∧
    ((∃ d a, decode w = .command (.mdet d a)) ↔ w &&& 0xFFFFCCFF#32 = 0x00000002#32) ∧
    ((∃ d a, decode w = .command (.madj d a)) ↔ w &&& 0xFFFFCCFF#32 = 0x00000003#32) ∧
    ((∃ d a, decode w = .command (.minv d a)) ↔ w &&& 0xFFFFCCFF#32 = 0x00000004#32) ∧
    ((∃ d a b, decode w = .command (.mmul d a b)) ↔ w &&& 0xFFFCCCFF#32 = 0x00000005#32) ∧
    ((∃ d a b, decode w = .command (.mvmul d a b)) ↔ w &&& 0xFFFCCCFF#32 = 0x00000006#32)

/-- R42: "192 legal words in all". -/
def Obligations.LegalWordsNumber192 : Prop :=
  {w : Word | ∃ i, decode w = .command i}.ncard = 192

/-- R46's written examples and T0's assembler check, word by word. -/
def Obligations.WrittenExamplesDecode : Prop :=
  decode 0x00000101#32 = .command (.modinv 1 0) ∧ decode 0x00000002#32 = .command (.mdet 0 0) ∧
  decode 0x00000103#32 = .command (.madj 1 0) ∧ decode 0x00000204#32 = .command (.minv 2 0) ∧
  decode 0x00012305#32 = .command (.mmul 3 2 1) ∧ decode 0x00000106#32 = .command (.mvmul 1 0 0) ∧
  decode 0x00003201#32 = .command (.modinv 2 3) ∧ decode 0x00020106#32 = .command (.mvmul 1 0 2) ∧
  (∃ why, decode 0x00000000#32 = .illegal why) ∧ (∃ why, decode 0x00010101#32 = .illegal why)

/-! ## Steps, the port and reset -/

/-- R20, R30, R35: when the host's next move writes a command word to `CMD`, the step is `exec` of the command the word
decodes to, on the state with that move made. That the host's moves wait in `pending` is the model's choice (assumption
log 1). -/
def Obligations.StepRunsTheDecodedCommand : Prop :=
  ∀ (s : State) (w : Word) (i : Instr) (rest : List HostMove),
    s.pending = .write 0x00#8 w :: rest → decode w = .command i →
    step s = exec i { s with pending := rest }

/-- R44: an illegal word writes `ILLEGAL_COMMAND` (code 4) to `STATUS.ERR` and nothing else changes, whatever `MOD` and
the registers hold; and every word is one of the commands or illegal. -/
def Obligations.IllegalWordWritesOnlyErr : Prop :=
  ∀ w : Word, (∃ i, decode w = .command i) ∨ ∀ s : State, executeCommand w s = .next { s with err := 4#4 }

/-- R83: the engine "is idle whenever no `CMD` write is in progress and keeps all state while idle". That a step with no
host move pending is such an idle moment is the model's choice (assumption log 1). -/
def Obligations.IdleStepKeepsAllState : Prop :=
  ∀ s : State, s.pending = [] → step s = .next s

/-- R29: what `PortRead` returns at every index; it changes no state. That the word is appended to `returned` is the
model's way of giving it to the host (assumption log 2). -/
def Obligations.ReadReturnsTheWordOfItsIndex : Prop :=
  ∀ (s : State) (idx : BitVec 8) (rest : List HostMove), s.pending = .read idx :: rest →
    ∃ v : Word, step s = .next { s with pending := rest, returned := s.returned ++ [v] } ∧
      (idx.toNat = 0x00 → v = 0#32) ∧
      (idx.toNat = 0x01 → v.toNat = (if s.cp then 256 else 0) + s.err.toNat) ∧
      (idx.toNat = 0x02 → v = s.modulus) ∧
      (∀ i : Fin 4, idx.toNat = 0x04 + i → v = s.scalars[i]) ∧
      (∀ k : Fin 4, idx.toNat = 0x20 + 8 * k → v = s.vectors[k].len) ∧
      (∀ (k : Fin 4) (i : Fin 5), idx.toNat = 0x21 + 8 * k + i → v = s.vectors[k].d[i]) ∧
      (∀ k : Fin 4, idx.toNat = 0x40 + 32 * k → v = s.matrices[k].ord) ∧
      (∀ (k : Fin 4) (f : Fin 25), idx.toNat = 0x41 + 32 * k + f → v = s.matrices[k].d[f]) ∧
      (ReservedIndex idx → v = 0#32)

/-- R30: a write to a read-write register stores the word as written and changes no other word the port shows
(`STATUS` among them); a write to `STATUS` or a reserved index changes nothing; a write to `CMD` executes the
command. -/
def Obligations.WriteStoresTheWordAndNothingElse : Prop :=
  ∀ (s : State) (idx : BitVec 8) (w : Word) (rest : List HostMove), s.pending = .write idx w :: rest →
    (idx.toNat = 0x00 → step s = executeCommand w { s with pending := rest }) ∧
    (idx.toNat = 0x01 ∨ ReservedIndex idx → step s = .next { s with pending := rest }) ∧
    (idx.toNat ≠ 0x00 → idx.toNat ≠ 0x01 → ¬ReservedIndex idx →
      ∃ t, step s = .next t ∧ t.pending = rest ∧ t.returned = s.returned ∧ portRead idx t = w ∧
        ∀ j : BitVec 8, j ≠ idx → portRead j t = portRead j s)

/-- R15, R28, R29: the 256 words of the port show the engine's whole state: two states that read the same at every index
agree on all 133 words and 5 bits. -/
def Obligations.PortShowsTheWholeState : Prop :=
  ∀ s t : State, (∀ idx : BitVec 8, portRead idx s = portRead idx t) ↔ SameEngine s t

/-- R34: reads and writes of registers are idempotent. Making the same read twice returns the same word twice; making
the same write twice, at any index but `CMD`, leaves what making it once leaves. -/
def Obligations.TransactionsAreIdempotent : Prop :=
  ∀ (s : State) (idx : BitVec 8) (w : Word) (rest : List HostMove),
    (s.pending = .read idx :: .read idx :: rest →
      ∃ v, Host.Core.run core 2 s = .next { s with pending := rest, returned := s.returned ++ [v, v] }) ∧
    (idx ≠ 0#8 → s.pending = .write idx w :: .write idx w :: rest →
      ∃ t, Host.Core.run core 2 s = .next t ∧ step { s with pending := .write idx w :: rest } = .next t)

/-- R26: every value the reset event leaves, from any state; `State.reset` holds the same. That the host's own two
fields stay is the model's choice (assumption log 3). -/
def Obligations.ResetLeavesTheListedValues : Prop :=
  ∀ (s : State) (rest : List HostMove), s.pending = .reset :: rest →
    ∃ t, step s = .next t ∧ SameEngine t State.reset ∧
      t.modulus = 0x0000001A#32 ∧ (∀ i : Fin 4, t.scalars[i] = 0#32) ∧
      (∀ k : Fin 4, t.vectors[k].len = 0#32 ∧ ∀ i : Fin 5, t.vectors[k].d[i] = 0#32) ∧
      (∀ k : Fin 4, t.matrices[k].ord = 0#32 ∧ ∀ f : Fin 25, t.matrices[k].d[f] = 0#32) ∧
      t.err = 0#4 ∧ t.cp = false ∧ t.pending = rest ∧ t.returned = s.returned

/-- R79, R88: the machine never stops; `k` steps make the first `k` moves of the host's sequence, no more and no
fewer. -/
def Obligations.EveryRunGoesOn : Prop :=
  ∀ (k : Nat) (s : State), ∃ t, Host.Core.run core k s = .next t ∧ t.pending = s.pending.drop k

/-- R35: "Each event sees the state left by all earlier events and by no later one". Running `xs` with `ys` still to come
gives what running `xs` alone gives, and the whole run is the run of `ys` from there. -/
def Obligations.EventsSeeEarlierOnesOnly : Prop :=
  ∀ (s : State) (xs ys : List HostMove),
    ∃ t, Host.Core.run core xs.length { s with pending := xs } = .next t ∧
      Host.Core.run core xs.length { s with pending := xs ++ ys } = .next { t with pending := ys } ∧
      Host.Core.run core (xs ++ ys).length { s with pending := xs ++ ys } =
        Host.Core.run core ys.length { t with pending := ys }

/-! ## The status register -/

/-- R21, R26: the status is legal right after reset. -/
def Obligations.StatusLegalAtReset : Prop := StatusLegal State.reset

/-- R21, R73, R76: every step, from any state with a legal status, leaves a legal status: codes 7 to 15 are never
produced, and `NOT_INVERTIBLE` always stands with `CP = 0`. -/
def Obligations.StatusLegalKeptByEveryStep : Prop :=
  ∀ s t : State, StatusLegal s → step s = .next t → StatusLegal t

/-- R21: what a read of `STATUS` can return in a state with a legal status (see `StatusLegalKeptByEveryStep`):
`0x000` to `0x006` or `0x100` to `0x106`, and never `0x101`. -/
def Obligations.StatusWordStaysInItsRange : Prop :=
  ∀ s : State, StatusLegal s →
    ((portRead 0x01#8 s).toNat ≤ 0x006 ∨
      (0x100 ≤ (portRead 0x01#8 s).toNat ∧ (portRead 0x01#8 s).toNat ≤ 0x106)) ∧
    (portRead 0x01#8 s).toNat ≠ 0x101

/-- R76: `ERR` is overwritten by every command whatever it held (so it is never sticky), illegal words included; `CP`
is written by `MODINV` and `MINV` at `OK` and `NOT_INVERTIBLE`, by `MDET` at `OK`, and keeps its value otherwise; no
step but a command or a reset changes `STATUS`. -/
def Obligations.StatusIsWrittenByCommandsAndResetOnly : Prop :=
  (∀ (i : Instr) (s t : State), exec i s = .next t →
    (∀ e : BitVec 4, exec i { s with err := e } = .next t) ∧
    (match i with
      | .modinv _ _ | .minv _ _ => t.cp = if t.err = 0#4 then true else if t.err = 1#4 then false else s.cp
      | .mdet d _ => if t.err = 0#4 then (t.cp = true ↔ gcdOf (scalarOf t d) (modulusOf s) = 1) else t.cp = s.cp
      | .madj _ _ | .mmul _ _ _ | .mvmul _ _ _ => t.cp = s.cp)) ∧
  (∀ (w : Word) (why : IllegalReason) (s : State), decode w = .illegal why →
    ∃ t, executeCommand w s = .next t ∧ t.err = 4#4 ∧ t.cp = s.cp) ∧
  (∀ s t : State, step s = .next t → t.err ≠ s.err ∨ t.cp ≠ s.cp →
    ∃ rest, s.pending = .reset :: rest ∨ ∃ w, s.pending = .write 0x00#8 w :: rest)

/-! ## Outcomes -/

/-- R72: every command completes with exactly one outcome code, a number 0 to 6. -/
def Obligations.EveryCommandCompletes : Prop :=
  ∀ (w : Word) (s : State), ∃ t, executeCommand w s = .next t ∧ t.err.toNat ≤ 6

/-- R75: which outcome a command reports when several failure conditions hold: the word, then the modulus, then the
order of the first matrix, then the shape of the second source, then invertibility. -/
def Obligations.FirstFailureInOrderIsReported : Prop :=
  (∀ (w : Word) (why : IllegalReason) (s t : State), decode w = .illegal why →
    executeCommand w s = .next t → t.err = 4#4) ∧
  ∀ (i : Instr) (s t : State), exec i s = .next t →
    (s.modulus.toInt < 2 → t.err = 6#4) ∧
    (2 ≤ s.modulus.toInt →
      match i with
      | .modinv _ a =>
        t.err = if gcdOf (reduce (scalarOf s a) (modulusOf s)) (modulusOf s) = 1 then 0#4 else 1#4
      | .mdet _ a | .madj _ a =>
        t.err = if 2 ≤ s.matrices[a].ord.toNat ∧ s.matrices[a].ord.toNat ≤ 5 then 0#4 else 5#4
      | .minv _ a =>
        t.err =
          if ¬(2 ≤ s.matrices[a].ord.toNat ∧ s.matrices[a].ord.toNat ≤ 5) then 5#4
          else if gcdOf (reduce (det (ordOf s a) (matOf s a)) (modulusOf s)) (modulusOf s) = 1 then 0#4
          else 1#4
      | .mmul _ a b =>
        t.err =
          if ¬(2 ≤ s.matrices[a].ord.toNat ∧ s.matrices[a].ord.toNat ≤ 5) then 5#4
          else if s.matrices[b].ord ≠ s.matrices[a].ord then 3#4 else 0#4
      | .mvmul _ a b =>
        t.err =
          if ¬(2 ≤ s.matrices[a].ord.toNat ∧ s.matrices[a].ord.toNat ≤ 5) then 5#4
          else if s.vectors[b].len ≠ s.matrices[a].ord then 2#4 else 0#4)

/-- R74's table, both ways: each command ends with the outcomes marked possible, each of them on some operands in some
state, and with no other. -/
def Obligations.OutcomesOfEachCommand : Prop :=
  ∀ e : BitVec 4,
    ((∃ d a s t, exec (.modinv d a) s = .next t ∧ t.err = e) ↔ e = 0#4 ∨ e = 1#4 ∨ e = 6#4) ∧
    ((∃ d a s t, exec (.mdet d a) s = .next t ∧ t.err = e) ↔ e = 0#4 ∨ e = 5#4 ∨ e = 6#4) ∧
    ((∃ d a s t, exec (.madj d a) s = .next t ∧ t.err = e) ↔ e = 0#4 ∨ e = 5#4 ∨ e = 6#4) ∧
    ((∃ d a s t, exec (.minv d a) s = .next t ∧ t.err = e) ↔ e = 0#4 ∨ e = 1#4 ∨ e = 5#4 ∨ e = 6#4) ∧
    ((∃ d a b s t, exec (.mmul d a b) s = .next t ∧ t.err = e) ↔ e = 0#4 ∨ e = 3#4 ∨ e = 5#4 ∨ e = 6#4) ∧
    ((∃ d a b s t, exec (.mvmul d a b) s = .next t ∧ t.err = e) ↔ e = 0#4 ∨ e = 2#4 ∨ e = 5#4 ∨ e = 6#4) ∧
    ((∃ w why s t, decode w = .illegal why ∧ executeCommand w s = .next t ∧ t.err = e) ↔ e = 4#4)

/-- R77: a command that ends with any outcome other than `OK` changes `STATUS.ERR` alone, and clears `STATUS.CP` for
`NOT_INVERTIBLE`. -/
def Obligations.FailedCommandChangesOnlyStatus : Prop :=
  ∀ (w : Word) (s t : State), executeCommand w s = .next t → t.err ≠ 0#4 →
    t = { s with err := t.err, cp := if t.err = 1#4 then false else s.cp }

/-- R25, R72: no hidden state. Two states that agree on `MOD` and on the significant words of the source registers a
command names get the same outcome from it, and on `OK` the same result, whatever else they hold. -/
def Obligations.ResultDependsOnTheNamedOperandsOnly : Prop :=
  ∀ (i : Instr) (s s' t t' : State), SameInputs i s s' → exec i s = .next t → exec i s' = .next t' →
    t.err = t'.err ∧ (t.err = 0#4 → SameResult i t t')

/-- R78: the result is computed from the old contents, so it does not depend on which register is the destination, be it
a source or not. -/
def Obligations.DestinationMayBeASource : Prop :=
  ∀ (s t t' : State) (d d' a b : RegNum),
    (exec (.modinv d a) s = .next t → exec (.modinv d' a) s = .next t' →
      t.err = t'.err ∧ (t.err = 0#4 → t.scalars[d] = t'.scalars[d'])) ∧
    (exec (.madj d a) s = .next t → exec (.madj d' a) s = .next t' →
      t.err = t'.err ∧ (t.err = 0#4 → SameMatrix t.matrices[d] t'.matrices[d'])) ∧
    (exec (.minv d a) s = .next t → exec (.minv d' a) s = .next t' →
      t.err = t'.err ∧ (t.err = 0#4 → SameMatrix t.matrices[d] t'.matrices[d'])) ∧
    (exec (.mmul d a b) s = .next t → exec (.mmul d' a b) s = .next t' →
      t.err = t'.err ∧ (t.err = 0#4 → SameMatrix t.matrices[d] t'.matrices[d'])) ∧
    (exec (.mvmul d a b) s = .next t → exec (.mvmul d' a b) s = .next t' →
      t.err = t'.err ∧ (t.err = 0#4 → SameVector t.vectors[d] t'.vectors[d']))

/-! ## Frames -/

/-- R55, R65: the frame of the two commands whose destination is a scalar register. Everything but `S[d]`, `ERR` and
`CP` stays, on every outcome. -/
def Obligations.ScalarCommandFrame : Prop :=
  ∀ (i : Instr) (d a : RegNum) (s t : State), i = .modinv d a ∨ i = .mdet d a → exec i s = .next t →
    t.modulus = s.modulus ∧ t.vectors = s.vectors ∧ t.matrices = s.matrices ∧
    (∀ k : RegNum, k ≠ d → t.scalars[k] = s.scalars[k]) ∧
    t.pending = s.pending ∧ t.returned = s.returned

/-- R66, R67, R70: the frame of the three commands whose destination is a matrix register. Only `M[d]`, `ERR` and, for
`MINV` alone, `CP` change; in `M[d]` the words at index `m²` and above stay, `m` the order of the first source. -/
def Obligations.MatrixCommandFrame : Prop :=
  ∀ (i : Instr) (d a b : RegNum) (s t : State),
    i = .madj d a ∨ i = .minv d a ∨ i = .mmul d a b → exec i s = .next t →
    t.modulus = s.modulus ∧ t.scalars = s.scalars ∧ t.vectors = s.vectors ∧
    (∀ k : RegNum, k ≠ d → t.matrices[k] = s.matrices[k]) ∧
    MatrixLeftoverKept s.matrices[d] t.matrices[d] (ordOf s a) ∧
    (i ≠ .minv d a → t.cp = s.cp) ∧ t.pending = s.pending ∧ t.returned = s.returned

/-- R71: the frame of `MVMUL`. Only `V[d]` and `ERR` change; in `V[d]` the words at index `m` and above stay. -/
def Obligations.VectorCommandFrame : Prop :=
  ∀ (d a b : RegNum) (s t : State), exec (.mvmul d a b) s = .next t →
    t.modulus = s.modulus ∧ t.scalars = s.scalars ∧ t.matrices = s.matrices ∧
    (∀ k : RegNum, k ≠ d → t.vectors[k] = s.vectors[k]) ∧
    VectorLeftoverKept s.vectors[d] t.vectors[d] (ordOf s a) ∧
    t.cp = s.cp ∧ t.pending = s.pending ∧ t.returned = s.returned

/-- R16: "No command writes `MOD`". Over whole steps: `MOD` changes only when the host writes index `0x02` or resets. -/
def Obligations.ModulusChangesByHostWriteOrResetOnly : Prop :=
  ∀ s t : State, step s = .next t → t.modulus ≠ s.modulus →
    ∃ rest, s.pending = .reset :: rest ∨ s.pending = .write 0x02#8 t.modulus :: rest

/-- R17, R18, R19: the values a command writes on `OK` lie in `[0, n)`; R55: the inverse `MODINV` writes is at least 1. -/
def Obligations.ResultsLieBelowTheModulus : Prop :=
  ∀ (d a b : RegNum) (s t : State), t.err = 0#4 →
    (exec (.modinv d a) s = .next t → 1 ≤ scalarOf t d ∧ scalarOf t d < modulusOf s) ∧
    (exec (.mdet d a) s = .next t → 0 ≤ scalarOf t d ∧ scalarOf t d < modulusOf s) ∧
    (exec (.madj d a) s = .next t ∨ exec (.minv d a) s = .next t ∨ exec (.mmul d a b) s = .next t →
      ordOf t d = ordOf s a ∧
      ∀ i < ordOf t d, ∀ j < ordOf t d, 0 ≤ matOf t d i j ∧ matOf t d i j < modulusOf s) ∧
    (exec (.mvmul d a b) s = .next t →
      lenOf t d = ordOf s a ∧ ∀ i < lenOf t d, 0 ≤ vecOf t d i ∧ vecOf t d i < modulusOf s)

/-! ## The arithmetic -/

/-- R49: `reduce(x, n)` is the unique `r` with `0 ≤ r < n` and `r ≡ x (mod n)`, and equals `x − n · ⌊x / n⌋`. -/
def Obligations.ReduceIsTheUniqueResidue : Prop :=
  ∀ x n : Int, 2 ≤ n →
    reduce x n = x - n * ⌊(x : ℚ) / n⌋ ∧ 0 ≤ reduce x n ∧ reduce x n < n ∧ n ∣ reduce x n - x ∧
    ∀ r : Int, 0 ≤ r → r < n → n ∣ r - x → r = reduce x n

/-- R50: the laws of `reduce`, which let an operand or an intermediate sum or product be reduced early. -/
def Obligations.ReduceLaws : Prop :=
  ∀ x y n : Int, 2 ≤ n →
    reduce (reduce x n) n = reduce x n ∧
    reduce (x + y) n = reduce (reduce x n + reduce y n) n ∧
    reduce (x * y) n = reduce (reduce x n * reduce y n) n ∧
    reduce (-x) n = reduce (n - reduce x n) n ∧
    (reduce x n = x ↔ 0 ≤ x ∧ x < n)

/-- R51: `gcd(a, b)` is the greatest positive integer that divides both, with its identities. -/
def Obligations.GcdIsTheGreatestCommonDivisor : Prop :=
  ∀ a b : Int, 0 ≤ a → 0 ≤ b → ¬(a = 0 ∧ b = 0) →
    (0 < gcdOf a b ∧ gcdOf a b ∣ a ∧ gcdOf a b ∣ b ∧ ∀ c : Int, c ∣ a → c ∣ b → c ≤ gcdOf a b) ∧
    gcdOf 0 b = b ∧ gcdOf a 0 = a ∧ gcdOf a b = gcdOf b a ∧ (0 < b → gcdOf a b = gcdOf b (a - b * ⌊(a : ℚ) / b⌋))

/-- R52: `modInverse(a, n)` is NotInvertible unless `gcd(reduce(a, n), n) = 1`, and then the unique `b` in `[0, n)` with
`reduce(reduce(a, n) · b, n) = 1`, which also satisfies `a·b ≡ 1 (mod n)`. -/
def Obligations.ModInverseIsTheUniqueInverse : Prop :=
  ∀ a n : Int, 2 ≤ n →
    (gcdOf (reduce a n) n ≠ 1 → modInverse a n = none) ∧
    (gcdOf (reduce a n) n = 1 → ∃ b, modInverse a n = some b ∧ 0 ≤ b ∧ b < n ∧
      reduce (reduce a n * b) n = 1 ∧ n ∣ a * b - 1 ∧
      ∀ b' : Int, 0 ≤ b' → b' < n → reduce (reduce a n * b') n = 1 → b' = b)

/-- R53: the extended Euclidean algorithm ends with `r0 = gcd(reduce(a, n), n)` and `t0 · reduce(a, n) ≡ r0 (mod n)`,
and its answer is the value R52 defines. That its rounds are bounded by a fuel of `n` is the model's way of writing the
loop (assumption log 5). -/
def Obligations.EuclideanAlgorithmComputesModInverse : Prop :=
  ∀ a n : Int, 2 ≤ n →
    (egcd a n).1 = gcdOf (reduce a n) n ∧ n ∣ (egcd a n).2 * reduce a n - (egcd a n).1 ∧
    egcdInverse a n = modInverse a n

/-- R54: the inverse law, inverting twice, shifting the operand by multiples of `n`, and the complete table for
`n = 26`. -/
def Obligations.ModInverseLaws : Prop :=
  (∀ a n b : Int, 2 ≤ n → modInverse a n = some b →
    reduce (b * a) n = 1 ∧ modInverse b n = some (reduce a n) ∧
    ∀ k : Int, modInverse (a + k * n) n = some b) ∧
  [(1, 1), (3, 9), (5, 21), (7, 15), (9, 3), (11, 19), (15, 7), (17, 23), (19, 11), (21, 5), (23, 17),
    (25, 25)].all (fun p : Int × Int => modInverse p.1 26 = some p.2) = true ∧
  [0, 2, 4, 6, 8, 10, 12, 13, 14, 16, 18, 20, 22, 24].all (fun a : Int => modInverse a 26 = none) = true

/-- R58: the determinant by first-row expansion, `j` counted from 0, base case order 1; and its order-2 form. -/
def Obligations.DetIsFirstRowExpansion : Prop :=
  (∀ X : IntMatrix, det 1 X = X 0 0) ∧
  (∀ (m : Nat) (X : IntMatrix), 2 ≤ m →
    det m X = ∑ j ∈ Finset.range m, (-1) ^ j * X 0 j * det (m - 1) (minor X 0 j)) ∧
  (∀ X : IntMatrix, det 2 X = X 0 0 * X 1 1 - X 0 1 * X 1 0)

/-- R58 against the library: the first-row expansion is the determinant. R58 defines it for orders 1 and above; at order 0
the value 1 is the model's choice (assumption log 4), and the library's too. -/
def Obligations.DetIsTheDeterminant : Prop :=
  ∀ (m : Nat) (X : IntMatrix), det m X = Matrix.det (Matrix.of fun i j : Fin m => X i j)

/-- R59, R60 against the library: the transposed cofactor matrix is the adjugate. -/
def Obligations.AdjIsTheAdjugate : Prop :=
  ∀ (m : Nat) (X : IntMatrix) (i j : Fin m), 2 ≤ m →
    adj m X i j = Matrix.adjugate (Matrix.of fun p q : Fin m => X p q) i j

/-- R60: the adjugate's entries, its order-2 form, and `X · adj(X) = adj(X) · X = det(X) · I_m` over the integers. -/
def Obligations.AdjugateTimesMatrixIsDeterminant : Prop :=
  (∀ (m : Nat) (X : IntMatrix), 2 ≤ m → ∀ i < m, ∀ j < m,
    adj m X i j = cof m X j i ∧ adj m X i j = (-1) ^ (i + j) * det (m - 1) (minor X j i) ∧
    ∑ k ∈ Finset.range m, X i k * adj m X k j = (if i = j then det m X else 0) ∧
    ∑ k ∈ Finset.range m, adj m X i k * X k j = (if i = j then det m X else 0)) ∧
  ∀ X : IntMatrix, adj 2 X 0 0 = X 1 1 ∧ adj 2 X 0 1 = -X 0 1 ∧ adj 2 X 1 0 = -X 1 0 ∧ adj 2 X 1 1 = X 0 0

/-- R62: `inverseMod(X, n)` fails unless `gcd(reduce(det(X), n), n) = 1`; else its entries are those of `adj(X)` times
`dInv`, reduced, it is inverse to `X` on both sides mod `n`, and no other matrix with entries in `[0, n)` is. -/
def Obligations.InverseModIsTheUniqueInverse : Prop :=
  ∀ (m : Nat) (X : IntMatrix) (n : Int), 2 ≤ m → 2 ≤ n →
    (gcdOf (reduce (det m X) n) n ≠ 1 → inverseMod m X n = none) ∧
    (gcdOf (reduce (det m X) n) n = 1 → ∃ dInv Y,
      modInverse (reduce (det m X) n) n = some dInv ∧ inverseMod m X n = some Y ∧
      (∀ i < m, ∀ j < m, Y i j = reduce (adj m X i j * dInv) n ∧ 0 ≤ Y i j ∧ Y i j < n ∧
        productMod m X Y n i j = (if i = j then 1 else 0) ∧
        productMod m Y X n i j = (if i = j then 1 else 0)) ∧
      ∀ Z : IntMatrix, (∀ i < m, ∀ j < m, 0 ≤ Z i j ∧ Z i j < n ∧
        productMod m X Z n i j = if i = j then 1 else 0) → ∀ i < m, ∀ j < m, Z i j = Y i j)

/-- R22: entry `(i, j)` of the matrix a register holds is data word `i·m + j`, read as a signed integer, the stride being
the order itself. -/
def Obligations.MatrixEntriesArePackedRowMajor : Prop :=
  ∀ (s : State) (k : RegNum), 2 ≤ s.matrices[k].ord.toNat → s.matrices[k].ord.toNat ≤ 5 →
    ∀ f : Fin 25, f.val < s.matrices[k].ord.toNat * s.matrices[k].ord.toNat →
      matOf s k (f.val / s.matrices[k].ord.toNat) (f.val % s.matrices[k].ord.toNat) = (s.matrices[k].d[f]).toInt

/-! ## The commands -/

/-- R55: `MODINV Sd, Sa`. Its encoding, and for every state the answer of each of its three outcomes; on `OK` the value
written is the one and only inverse in `[1, n)`. -/
def Obligations.ModinvFollowsItsRule : Prop :=
  ∀ (d a : RegNum) (s : State),
    decode (0x00000001#32 ||| BitVec.ofNat 32 d <<< 8 ||| BitVec.ofNat 32 a <<< 12) = .command (.modinv d a) ∧
    (s.modulus.toInt < 2 → exec (.modinv d a) s = .next { s with err := 6#4 }) ∧
    (2 ≤ s.modulus.toInt → gcdOf (reduce s.scalars[a].toInt s.modulus.toInt) s.modulus.toInt ≠ 1 →
      exec (.modinv d a) s = .next { s with cp := false, err := 1#4 }) ∧
    (2 ≤ s.modulus.toInt → gcdOf (reduce s.scalars[a].toInt s.modulus.toInt) s.modulus.toInt = 1 →
      ∃ b : Int, 1 ≤ b ∧ b < s.modulus.toInt ∧ reduce (s.scalars[a].toInt * b) s.modulus.toInt = 1 ∧
        (∀ b' : Int, 0 ≤ b' → b' < s.modulus.toInt →
          reduce (s.scalars[a].toInt * b') s.modulus.toInt = 1 → b' = b) ∧
        exec (.modinv d a) s =
          .next { s with scalars := s.scalars.set d (BitVec.ofInt 32 b), cp := true, err := 0#4 })

/-- R65: `MDET Sd, Ma`. Its encoding and the answer of each of its three outcomes. -/
def Obligations.MdetFollowsItsRule : Prop :=
  ∀ (d a : RegNum) (s : State),
    decode (0x00000002#32 ||| BitVec.ofNat 32 d <<< 8 ||| BitVec.ofNat 32 a <<< 12) = .command (.mdet d a) ∧
    (s.modulus.toInt < 2 → exec (.mdet d a) s = .next { s with err := 6#4 }) ∧
    (2 ≤ s.modulus.toInt → s.matrices[a].ord.toNat < 2 ∨ 5 < s.matrices[a].ord.toNat →
      exec (.mdet d a) s = .next { s with err := 5#4 }) ∧
    (2 ≤ s.modulus.toInt → 2 ≤ s.matrices[a].ord.toNat → s.matrices[a].ord.toNat ≤ 5 →
      ∃ v : Int, v = reduce (det s.matrices[a].ord.toNat (matOf s a)) s.modulus.toInt ∧
        0 ≤ v ∧ v < s.modulus.toInt ∧
        exec (.mdet d a) s =
          .next { s with
            scalars := s.scalars.set d (BitVec.ofInt 32 v)
            cp := decide (gcdOf v s.modulus.toInt = 1)
            err := 0#4 })

/-- R66: `MADJ Md, Ma`. Its encoding and the answer of each of its three outcomes; on `OK` only `M[d]` and `ERR`
change, `M[d]` holds the reduced adjugate and its leftover words stay. -/
def Obligations.MadjFollowsItsRule : Prop :=
  ∀ (d a : RegNum) (s : State),
    decode (0x00000003#32 ||| BitVec.ofNat 32 d <<< 8 ||| BitVec.ofNat 32 a <<< 12) = .command (.madj d a) ∧
    (s.modulus.toInt < 2 → exec (.madj d a) s = .next { s with err := 6#4 }) ∧
    (2 ≤ s.modulus.toInt → s.matrices[a].ord.toNat < 2 ∨ 5 < s.matrices[a].ord.toNat →
      exec (.madj d a) s = .next { s with err := 5#4 }) ∧
    (2 ≤ s.modulus.toInt → 2 ≤ s.matrices[a].ord.toNat → s.matrices[a].ord.toNat ≤ 5 →
      ∃ r : MatrixReg,
        exec (.madj d a) s = .next { s with matrices := s.matrices.set d r, err := 0#4 } ∧
        HoldsMatrix r (ordOf s a)
          (fun i j => reduce (adj (ordOf s a) (matOf s a) i j) s.modulus.toInt) ∧
        MatrixLeftoverKept s.matrices[d] r (ordOf s a))

/-- R67: `MINV Md, Ma`. Its encoding and the answer of each of its four outcomes. -/
def Obligations.MinvFollowsItsRule : Prop :=
  ∀ (d a : RegNum) (s : State),
    decode (0x00000004#32 ||| BitVec.ofNat 32 d <<< 8 ||| BitVec.ofNat 32 a <<< 12) = .command (.minv d a) ∧
    (s.modulus.toInt < 2 → exec (.minv d a) s = .next { s with err := 6#4 }) ∧
    (2 ≤ s.modulus.toInt → s.matrices[a].ord.toNat < 2 ∨ 5 < s.matrices[a].ord.toNat →
      exec (.minv d a) s = .next { s with err := 5#4 }) ∧
    (2 ≤ s.modulus.toInt → 2 ≤ s.matrices[a].ord.toNat → s.matrices[a].ord.toNat ≤ 5 →
      gcdOf (reduce (det (ordOf s a) (matOf s a)) s.modulus.toInt) s.modulus.toInt ≠ 1 →
      exec (.minv d a) s = .next { s with cp := false, err := 1#4 }) ∧
    (2 ≤ s.modulus.toInt → 2 ≤ s.matrices[a].ord.toNat → s.matrices[a].ord.toNat ≤ 5 →
      gcdOf (reduce (det (ordOf s a) (matOf s a)) s.modulus.toInt) s.modulus.toInt = 1 →
      ∃ (dInv : Int) (r : MatrixReg),
        modInverse (reduce (det (ordOf s a) (matOf s a)) s.modulus.toInt) s.modulus.toInt = some dInv ∧
        exec (.minv d a) s = .next { s with matrices := s.matrices.set d r, cp := true, err := 0#4 } ∧
        HoldsMatrix r (ordOf s a)
          (fun i j => reduce (adj (ordOf s a) (matOf s a) i j * dInv) s.modulus.toInt) ∧
        MatrixLeftoverKept s.matrices[d] r (ordOf s a))

/-- R70: `MMUL Md, Ma, Mb`. Its encoding and the answer of each of its four outcomes; the sum is row `i` of `M[a]` against
column `j` of `M[b]`. -/
def Obligations.MmulFollowsItsRule : Prop :=
  ∀ (d a b : RegNum) (s : State),
    decode (0x00000005#32 ||| BitVec.ofNat 32 d <<< 8 ||| BitVec.ofNat 32 a <<< 12 ||| BitVec.ofNat 32 b <<< 16) =
      .command (.mmul d a b) ∧
    (s.modulus.toInt < 2 → exec (.mmul d a b) s = .next { s with err := 6#4 }) ∧
    (2 ≤ s.modulus.toInt → s.matrices[a].ord.toNat < 2 ∨ 5 < s.matrices[a].ord.toNat →
      exec (.mmul d a b) s = .next { s with err := 5#4 }) ∧
    (2 ≤ s.modulus.toInt → 2 ≤ s.matrices[a].ord.toNat → s.matrices[a].ord.toNat ≤ 5 →
      s.matrices[b].ord ≠ s.matrices[a].ord → exec (.mmul d a b) s = .next { s with err := 3#4 }) ∧
    (2 ≤ s.modulus.toInt → 2 ≤ s.matrices[a].ord.toNat → s.matrices[a].ord.toNat ≤ 5 →
      s.matrices[b].ord = s.matrices[a].ord →
      ∃ r : MatrixReg,
        exec (.mmul d a b) s = .next { s with matrices := s.matrices.set d r, err := 0#4 } ∧
        HoldsMatrix r (ordOf s a)
          (fun i j => (∑ k ∈ Finset.range (ordOf s a), matOf s a i k * matOf s b k j) % s.modulus.toInt) ∧
        MatrixLeftoverKept s.matrices[d] r (ordOf s a))

/-- R71: `MVMUL Vd, Ma, Vb`. Its encoding and the answer of each of its four outcomes; the vector is a column. -/
def Obligations.MvmulFollowsItsRule : Prop :=
  ∀ (d a b : RegNum) (s : State),
    decode (0x00000006#32 ||| BitVec.ofNat 32 d <<< 8 ||| BitVec.ofNat 32 a <<< 12 ||| BitVec.ofNat 32 b <<< 16) =
      .command (.mvmul d a b) ∧
    (s.modulus.toInt < 2 → exec (.mvmul d a b) s = .next { s with err := 6#4 }) ∧
    (2 ≤ s.modulus.toInt → s.matrices[a].ord.toNat < 2 ∨ 5 < s.matrices[a].ord.toNat →
      exec (.mvmul d a b) s = .next { s with err := 5#4 }) ∧
    (2 ≤ s.modulus.toInt → 2 ≤ s.matrices[a].ord.toNat → s.matrices[a].ord.toNat ≤ 5 →
      s.vectors[b].len ≠ s.matrices[a].ord → exec (.mvmul d a b) s = .next { s with err := 2#4 }) ∧
    (2 ≤ s.modulus.toInt → 2 ≤ s.matrices[a].ord.toNat → s.matrices[a].ord.toNat ≤ 5 →
      s.vectors[b].len = s.matrices[a].ord →
      ∃ r : VectorReg,
        exec (.mvmul d a b) s = .next { s with vectors := s.vectors.set d r, err := 0#4 } ∧
        HoldsVector r (ordOf s a)
          (fun i => (∑ k ∈ Finset.range (ordOf s a), matOf s a i k * vecOf s b k) % s.modulus.toInt) ∧
        VectorLeftoverKept s.vectors[d] r (ordOf s a))

/-- R58, R61, R65 against the library: on `OK`, `MDET` writes the determinant's residue, and `CP` is
`isInvertibleMod`, which says whether the determinant is coprime to `n`. -/
def Obligations.MdetWritesTheDeterminantResidue : Prop :=
  ∀ (d a : RegNum) (s t : State), exec (.mdet d a) s = .next t → t.err = 0#4 →
    scalarOf t d =
      Matrix.det (Matrix.of fun i j : Fin (ordOf s a) => matOf s a i j) % modulusOf s ∧
    t.cp = isInvertibleMod (ordOf s a) (matOf s a) (modulusOf s) ∧
    (t.cp = true ↔
      IsCoprime (Matrix.det (Matrix.of fun i j : Fin (ordOf s a) => matOf s a i j)) (modulusOf s))

/-- R60, R66: on `OK`, source times the result of `MADJ` is the source's determinant on the diagonal and 0 off it,
mod `n`, in either order. -/
def Obligations.MadjTimesSourceIsDeterminant : Prop :=
  ∀ (d a : RegNum) (s t : State), exec (.madj d a) s = .next t → t.err = 0#4 →
    ∀ i < ordOf s a, ∀ j < ordOf s a,
      modulusOf s ∣ (∑ k ∈ Finset.range (ordOf s a), matOf s a i k * matOf t d k j) -
        (if i = j then det (ordOf s a) (matOf s a) else 0) ∧
      modulusOf s ∣ (∑ k ∈ Finset.range (ordOf s a), matOf t d i k * matOf s a k j) -
        (if i = j then det (ordOf s a) (matOf s a) else 0)

/-- R62, R67: with a legal modulus and order, `MINV` ends `OK` exactly when the source has an inverse mod `n`. -/
def Obligations.MinvSucceedsExactlyOnInvertibleMatrices : Prop :=
  ∀ (d a : RegNum) (s t : State), 2 ≤ modulusOf s → 2 ≤ ordOf s a → ordOf s a ≤ 5 →
    exec (.minv d a) s = .next t →
    (t.err = 0#4 ↔ ∃ Y : IntMatrix, ∀ i < ordOf s a, ∀ j < ordOf s a,
      modulusOf s ∣ (∑ k ∈ Finset.range (ordOf s a), matOf s a i k * Y k j) - if i = j then 1 else 0)

/-- R67, R70: "An invertible matrix times its `MINV` result, in either order, is the identity": `MINV Md, Ma`, then
`MMUL` of the two into any register. -/
def Obligations.MinvThenMmulGivesTheIdentity : Prop :=
  ∀ (d a e : RegNum) (s t : State), d ≠ a → exec (.minv d a) s = .next t → t.err = 0#4 →
    ∃ u u' : State, exec (.mmul e a d) t = .next u ∧ exec (.mmul e d a) t = .next u' ∧
      u.err = 0#4 ∧ u'.err = 0#4 ∧
      HoldsMatrix u.matrices[e] (ordOf s a) (fun i j => if i = j then 1 else 0) ∧
      HoldsMatrix u'.matrices[e] (ordOf s a) (fun i j => if i = j then 1 else 0)

/-- R71's round trip (D0 §8): the vector a key maps with `MVMUL` is mapped back by the key's `MINV` result, for every
vector with entries in `[0, n)`. -/
def Obligations.EncryptThenDecryptRestoresTheBlock : Prop :=
  ∀ (k i b x d : RegNum) (s t u v : State), i ≠ k →
    exec (.minv i k) s = .next t → t.err = 0#4 → lenOf s b = ordOf s k →
    (∀ j < ordOf s k, 0 ≤ vecOf s b j ∧ vecOf s b j < modulusOf s) →
    exec (.mvmul x k b) t = .next u → exec (.mvmul d i x) u = .next v →
    v.err = 0#4 ∧ HoldsVector v.vectors[d] (ordOf s k) (vecOf s b)

/-- R54, R55: `MODINV Sd, Sd` executed twice on an invertible value in `[0, n)` restores the value. -/
def Obligations.ModinvTwiceRestoresTheScalar : Prop :=
  ∀ (d : RegNum) (s t : State), 0 ≤ scalarOf s d → scalarOf s d < modulusOf s →
    exec (.modinv d d) s = .next t → t.err = 0#4 →
    exec (.modinv d d) t = .next { s with cp := true, err := 0#4 }

/-- R62, R67: `MINV Md, Md` executed twice on an invertible matrix with entries in `[0, n)` restores it. -/
def Obligations.MinvTwiceRestoresTheMatrix : Prop :=
  ∀ (d : RegNum) (s t : State),
    (∀ i < ordOf s d, ∀ j < ordOf s d, 0 ≤ matOf s d i j ∧ matOf s d i j < modulusOf s) →
    exec (.minv d d) s = .next t → t.err = 0#4 →
    exec (.minv d d) t = .next { s with cp := true, err := 0#4 }

/-- R66: for order 2 with a source in `[0, n)`, applying `MADJ` twice in place returns the source. -/
def Obligations.MadjTwiceRestoresAnOrderTwoMatrix : Prop :=
  ∀ (d : RegNum) (s t : State), ordOf s d = 2 →
    (∀ i < 2, ∀ j < 2, 0 ≤ matOf s d i j ∧ matOf s d i j < modulusOf s) →
    exec (.madj d d) s = .next t → t.err = 0#4 →
    exec (.madj d d) t = .next { s with err := 0#4 }

/-- R58, R65, R70: the determinant of a product is the product of the determinants, across three commands: `MMUL` then
`MDET` gives the reduced product of the two determinants. -/
def Obligations.MdetOfMmulIsTheProduct : Prop :=
  ∀ (c a b d : RegNum) (s t u : State), exec (.mmul c a b) s = .next t → t.err = 0#4 →
    exec (.mdet d c) t = .next u →
    u.err = 0#4 ∧
    scalarOf u d = reduce (det (ordOf s a) (matOf s a) * det (ordOf s a) (matOf s b)) (modulusOf s)
end

