-- ==== Sys2Proof/Laws/Arith.lean ====
section
/-! SUPPORT. Laws of the integer arithmetic: `reduce` is the remainder, the loop of the extended Euclidean algorithm
keeps its invariants, and the matrix functions in the library's terms. -/

namespace Sys2Proof.Machine

/-! ## reduce -/

theorem reduce_eq_emod {n : Int} (hn : 0 ≤ n) (x : Int) : reduce x n = x % n := by
  rw [reduce, Int.fdiv_eq_ediv_of_nonneg _ hn, Int.emod_def]

theorem reduce_nonneg {n : Int} (hn : 0 < n) (x : Int) : 0 ≤ reduce x n := by
  rw [reduce_eq_emod hn.le]; exact Int.emod_nonneg _ hn.ne'

theorem reduce_lt {n : Int} (hn : 0 < n) (x : Int) : reduce x n < n := by
  rw [reduce_eq_emod hn.le]; exact Int.emod_lt_of_pos _ hn

theorem reduce_modEq {n : Int} (hn : 0 ≤ n) (x : Int) : reduce x n ≡ x [ZMOD n] := by
  rw [reduce_eq_emod hn]; exact Int.mod_modEq x n

theorem reduce_eq_reduce_iff {n : Int} (hn : 0 ≤ n) (x y : Int) :
    reduce x n = reduce y n ↔ x ≡ y [ZMOD n] := by
  rw [reduce_eq_emod hn, reduce_eq_emod hn]; rfl

theorem reduce_of_range {n x : Int} (h0 : 0 ≤ x) (h1 : x < n) : reduce x n = x := by
  rw [reduce_eq_emod (h0.trans h1.le)]; exact Int.emod_eq_of_lt h0 h1

/-- A value in `[0, n)` is determined by its residue class. -/
theorem eq_of_range_of_modEq {n x y : Int} (hx0 : 0 ≤ x) (hx1 : x < n) (hy0 : 0 ≤ y) (hy1 : y < n)
    (h : x ≡ y [ZMOD n]) : x = y := by
  have := (reduce_eq_reduce_iff (hx0.trans hx1.le) x y).2 h
  rwa [reduce_of_range hx0 hx1, reduce_of_range hy0 hy1] at this

/-! ## gcd -/

theorem gcd_eq_one_iff (a b : Int) : gcdOf a b = 1 ↔ Int.gcd a b = 1 := by
  simp [gcdOf]

theorem gcd_eq_one_iff_isCoprime (a b : Int) : gcdOf a b = 1 ↔ IsCoprime a b := by
  rw [gcd_eq_one_iff, Int.isCoprime_iff_gcd_eq_one]

/-! ## The extended Euclidean algorithm -/

/-- With enough fuel the loop ends with the greatest common divisor of `r0` and `r1`, and the congruences
`t0·a ≡ r0`, `t1·a ≡ r1` (mod `n`) carry over to its answer (the invariants of R53). -/
theorem egcdLoop_spec (a n : Int) :
    ∀ (fuel : Nat) (r0 r1 t0 t1 : Int), 0 ≤ r1 → 0 ≤ r0 → r1 < fuel →
      t0 * a ≡ r0 [ZMOD n] → t1 * a ≡ r1 [ZMOD n] →
      (egcdLoop fuel r0 r1 t0 t1).1 = gcdOf r0 r1 ∧
        (egcdLoop fuel r0 r1 t0 t1).2 * a ≡ (egcdLoop fuel r0 r1 t0 t1).1 [ZMOD n] := by
  intro fuel
  induction fuel with
  | zero => intro r0 r1 t0 t1 h1 _ hf; exact absurd hf (by push_cast; omega)
  | succ k ih =>
    intro r0 r1 t0 t1 h1 h0 hf c0 c1
    by_cases hz : r1 = 0
    · subst hz
      simp only [egcdLoop, if_true]
      exact ⟨by simp [gcdOf, abs_of_nonneg h0], c0⟩
    · have hpos : 0 < r1 := lt_of_le_of_ne h1 (Ne.symm hz)
      have hrem : r0 - Int.fdiv r0 r1 * r1 = r0 % r1 := by
        rw [mul_comm]; exact reduce_eq_emod h1 r0
      have hlt := Int.emod_lt_of_pos r0 hpos
      have hnn := Int.emod_nonneg r0 hz
      have key := ih r1 (r0 - Int.fdiv r0 r1 * r1) t1 (t0 - Int.fdiv r0 r1 * t1)
        (by rw [hrem]; exact hnn) h1 (by rw [hrem]; push_cast at hf; omega) c1
        (by
          have := c0.sub (c1.mul_left (Int.fdiv r0 r1))
          rwa [← mul_assoc, ← sub_mul] at this)
      simp only [egcdLoop, if_neg hz]
      refine ⟨?_, key.2⟩
      rw [key.1, hrem, gcdOf, gcdOf, Int.gcd_comm r1, Int.gcd_emod]

theorem egcd_spec {n : Int} (hn : 0 < n) (a : Int) :
    (egcd a n).1 = gcdOf (reduce a n) n ∧ (egcd a n).2 * reduce a n ≡ (egcd a n).1 [ZMOD n] := by
  have h := egcdLoop_spec (reduce a n) n n.toNat n (reduce a n) 0 1 (reduce_nonneg hn a) hn.le
    (by rw [Int.toNat_of_nonneg hn.le]; exact reduce_lt hn a)
    (by rw [zero_mul]; exact (Int.modEq_iff_dvd.2 (by simp))) (by rw [one_mul])
  refine ⟨?_, h.2⟩
  rw [egcd, h.1, gcdOf, gcdOf, Int.gcd_comm]

/-- Everything `modInverse` can answer: NotInvertible exactly when the operand and `n` share a factor, else a value in
`[0, n)` inverse to the operand. -/
theorem modInverse_cases {n : Int} (hn : 2 ≤ n) (a : Int) :
    (gcdOf (reduce a n) n ≠ 1 ∧ modInverse a n = none) ∨
      (gcdOf (reduce a n) n = 1 ∧ ∃ b, modInverse a n = some b ∧ 0 ≤ b ∧ b < n ∧ a * b ≡ 1 [ZMOD n]) := by
  have hpos : 0 < n := by omega
  by_cases h : gcdOf (reduce a n) n = 1
  · right
    refine ⟨h, reduce (egcd a n).2 n, by simp [modInverse, h], reduce_nonneg hpos _, reduce_lt hpos _, ?_⟩
    obtain ⟨e1, e2⟩ := egcd_spec hpos a
    rw [e1, h] at e2
    calc a * reduce (egcd a n).2 n ≡ reduce a n * (egcd a n).2 [ZMOD n] :=
          ((reduce_modEq hpos.le a).symm).mul (reduce_modEq hpos.le _)
      _ = (egcd a n).2 * reduce a n := mul_comm _ _
      _ ≡ 1 [ZMOD n] := e2
  · exact .inl ⟨h, by simp [modInverse, h]⟩

/-! ## Sums, signs, minors -/

theorem sumTo_eq_sum (m : Nat) (f : Nat → Int) : sumTo m f = ∑ k ∈ Finset.range m, f k := by
  induction m with
  | zero => rfl
  | succ m ih => rw [sumTo, ih, Finset.sum_range_succ]

theorem sumTo_eq_sum_fin (m : Nat) (f : Nat → Int) : sumTo m f = ∑ k : Fin m, f k := by
  rw [sumTo_eq_sum, Finset.sum_range]

theorem sumTo_congr {m : Nat} {f g : Nat → Int} (h : ∀ k < m, f k = g k) : sumTo m f = sumTo m g := by
  rw [sumTo_eq_sum, sumTo_eq_sum]
  exact Finset.sum_congr rfl fun k hk => h k (Finset.mem_range.1 hk)

theorem signOf_eq_pow (k : Nat) : signOf k = (-1) ^ k := by
  rw [signOf]
  split
  · rename_i h; rw [Even.neg_one_pow (Nat.even_iff.2 h)]
  · rename_i h; rw [Odd.neg_one_pow (Nat.odd_iff.2 (by omega))]

/-- The order-`m` part of a matrix value as a library matrix. -/
def toMatrix (m : Nat) (X : IntMatrix) : Matrix (Fin m) (Fin m) ℤ := Matrix.of fun i j => X i j

@[simp] theorem toMatrix_apply (m : Nat) (X : IntMatrix) (i j : Fin m) : toMatrix m X i j = X i j := rfl

/-- Removing a row and a column is the library's submatrix along `succAbove`. -/
theorem toMatrix_minor (m : Nat) (X : IntMatrix) (i j : Fin (m + 1)) :
    toMatrix m (minor X i j) = (toMatrix (m + 1) X).submatrix i.succAbove j.succAbove := by
  ext r c
  have key : ∀ (p : Fin (m + 1)) (q : Fin m),
      ((p.succAbove q : Fin (m + 1)) : Nat) = if (p : Nat) ≤ q then (q : Nat) + 1 else q := by
    intro p q
    by_cases h : (p : Nat) ≤ q
    · rw [if_pos h, Fin.succAbove_of_le_castSucc _ _ (by simpa [Fin.le_def] using h), Fin.val_succ]
    · rw [if_neg h, Fin.succAbove_of_castSucc_lt _ _ (by simpa [Fin.lt_def] using h), Fin.val_castSucc]
  simp [minor, key]

end Sys2Proof.Machine
end

