-- ==== Sys2Proof/Laws/Decode.lean ====
section
/-! SUPPORT. What decoding can answer, said once, and the fields of a word as bits. -/

namespace Sys2Proof

/-- Everything `decode` can answer (R43): each command on its own condition, an illegal word otherwise. -/
theorem decode_cases (w : Word) :
    ((fieldsOf w).rsv ≠ 0#32 ∧ decode w = .illegal .reservedBit) ∨
    ((fieldsOf w).rsv = 0#32 ∧
      (((fieldsOf w).op = 1#8 ∧ (fieldsOf w).rb = 0#2 ∧
          decode w = .command (.modinv (regNum (fieldsOf w).rd) (regNum (fieldsOf w).ra))) ∨
        ((fieldsOf w).op = 2#8 ∧ (fieldsOf w).rb = 0#2 ∧
          decode w = .command (.mdet (regNum (fieldsOf w).rd) (regNum (fieldsOf w).ra))) ∨
        ((fieldsOf w).op = 3#8 ∧ (fieldsOf w).rb = 0#2 ∧
          decode w = .command (.madj (regNum (fieldsOf w).rd) (regNum (fieldsOf w).ra))) ∨
        ((fieldsOf w).op = 4#8 ∧ (fieldsOf w).rb = 0#2 ∧
          decode w = .command (.minv (regNum (fieldsOf w).rd) (regNum (fieldsOf w).ra))) ∨
        ((fieldsOf w).op = 5#8 ∧ decode w =
          .command (.mmul (regNum (fieldsOf w).rd) (regNum (fieldsOf w).ra) (regNum (fieldsOf w).rb))) ∨
        ((fieldsOf w).op = 6#8 ∧ decode w =
          .command (.mvmul (regNum (fieldsOf w).rd) (regNum (fieldsOf w).ra) (regNum (fieldsOf w).rb))) ∨
        ((fieldsOf w).op ∈ [1#8, 2#8, 3#8, 4#8] ∧ (fieldsOf w).rb ≠ 0#2 ∧
          decode w = .illegal .secondSourceSet) ∨
        ((fieldsOf w).op ∉ [1#8, 2#8, 3#8, 4#8, 5#8, 6#8] ∧ decode w = .illegal .reservedOpcode))) := by
  unfold decode
  generalize fieldsOf w = f
  by_cases h0 : f.rsv = 0#32
  · right
    refine ⟨h0, ?_⟩
    simp only [h0, ne_eq, not_true_eq_false, if_false]
    by_cases h1 : f.op = 1#8
    · by_cases hb : f.rb = 0#2 <;> simp [h1, hb]
    by_cases h2 : f.op = 2#8
    · by_cases hb : f.rb = 0#2 <;> simp [h2, hb]
    by_cases h3 : f.op = 3#8
    · by_cases hb : f.rb = 0#2 <;> simp [h3, hb]
    by_cases h4 : f.op = 4#8
    · by_cases hb : f.rb = 0#2 <;> simp [h4, hb]
    by_cases h5 : f.op = 5#8
    · simp [h5]
    by_cases h6 : f.op = 6#8
    · simp [h6]
    have hout : ¬(1#8 ≤ f.op ∧ f.op ≤ 4#8) := by
      rintro ⟨a, b⟩
      simp only [BitVec.le_def, BitVec.toNat_ofNat] at a b
      have key : ∀ v : Nat, v < 256 → f.op.toNat = v → f.op = BitVec.ofNat 8 v := fun v hv h => by
        apply BitVec.eq_of_toNat_eq; rw [h, BitVec.toNat_ofNat]; exact (Nat.mod_eq_of_lt hv).symm
      have : f.op.toNat = 1 ∨ f.op.toNat = 2 ∨ f.op.toNat = 3 ∨ f.op.toNat = 4 := by omega
      rcases this with h | h | h | h
      exacts [h1 (key 1 (by omega) h), h2 (key 2 (by omega) h), h3 (key 3 (by omega) h), h4 (key 4 (by omega) h)]
    simp [h1, h2, h3, h4, h5, h6, hout]
  · exact .inl ⟨h0, by simp [h0]⟩

theorem fieldsOf_rsv (w : Word) : (fieldsOf w).rsv = w &&& 0xFFFCCC00#32 := rfl

/-- The opcode field is the low byte. -/
theorem fieldsOf_op_toNat (w : Word) : (fieldsOf w).op.toNat = (w &&& 0xFF#32).toNat := by
  have := Nat.and_two_pow_sub_one_eq_mod w.toNat 8
  simp [fieldsOf, BitVec.extractLsb]
  simpa using this.symm

/-- A register field in place is the field's bits shifted there. -/
theorem regField_regNum (b : BitVec 2) (k : Nat) : regField (regNum b) k = b.setWidth 32 <<< k := by
  unfold regField
  congr 1
  apply BitVec.eq_of_toNat_eq
  simp [regNum]

end Sys2Proof
end

