-- ==== Sys2Proof/Laws/State.lean ====
section
/-! SUPPORT. One lemma per field per update of the state, each true by rfl. -/

namespace Sys2Proof.Machine

section
variable (s : State) (v : Bool) (x : Int) (d : RegNum) (m : Nat) (Y : IntMatrix) (y : IntVector)

@[simp] theorem setCoprime_modulus : (setCoprime v s).modulus = s.modulus := rfl
@[simp] theorem setCoprime_scalars : (setCoprime v s).scalars = s.scalars := rfl
@[simp] theorem setCoprime_vectors : (setCoprime v s).vectors = s.vectors := rfl
@[simp] theorem setCoprime_matrices : (setCoprime v s).matrices = s.matrices := rfl
@[simp] theorem setCoprime_err : (setCoprime v s).err = s.err := rfl
@[simp] theorem setCoprime_cp : (setCoprime v s).cp = v := rfl
@[simp] theorem setCoprime_pending : (setCoprime v s).pending = s.pending := rfl
@[simp] theorem setCoprime_returned : (setCoprime v s).returned = s.returned := rfl

@[simp] theorem writeScalar_modulus : (writeScalar d x s).modulus = s.modulus := rfl
@[simp] theorem writeScalar_scalars :
    (writeScalar d x s).scalars = s.scalars.set d (toWord x) := rfl
@[simp] theorem writeScalar_vectors : (writeScalar d x s).vectors = s.vectors := rfl
@[simp] theorem writeScalar_matrices : (writeScalar d x s).matrices = s.matrices := rfl
@[simp] theorem writeScalar_err : (writeScalar d x s).err = s.err := rfl
@[simp] theorem writeScalar_cp : (writeScalar d x s).cp = s.cp := rfl
@[simp] theorem writeScalar_pending : (writeScalar d x s).pending = s.pending := rfl
@[simp] theorem writeScalar_returned : (writeScalar d x s).returned = s.returned := rfl

@[simp] theorem writeMatrix_modulus : (writeMatrix d m Y s).modulus = s.modulus := rfl
@[simp] theorem writeMatrix_scalars : (writeMatrix d m Y s).scalars = s.scalars := rfl
@[simp] theorem writeMatrix_vectors : (writeMatrix d m Y s).vectors = s.vectors := rfl
@[simp] theorem writeMatrix_matrices :
    (writeMatrix d m Y s).matrices = s.matrices.set d (s.matrices[d].withValue m Y) := rfl
@[simp] theorem writeMatrix_err : (writeMatrix d m Y s).err = s.err := rfl
@[simp] theorem writeMatrix_cp : (writeMatrix d m Y s).cp = s.cp := rfl
@[simp] theorem writeMatrix_pending : (writeMatrix d m Y s).pending = s.pending := rfl
@[simp] theorem writeMatrix_returned : (writeMatrix d m Y s).returned = s.returned := rfl

@[simp] theorem writeVector_modulus : (writeVector d m y s).modulus = s.modulus := rfl
@[simp] theorem writeVector_scalars : (writeVector d m y s).scalars = s.scalars := rfl
@[simp] theorem writeVector_vectors :
    (writeVector d m y s).vectors = s.vectors.set d (s.vectors[d].withValue m y) := rfl
@[simp] theorem writeVector_matrices : (writeVector d m y s).matrices = s.matrices := rfl
@[simp] theorem writeVector_err : (writeVector d m y s).err = s.err := rfl
@[simp] theorem writeVector_cp : (writeVector d m y s).cp = s.cp := rfl
@[simp] theorem writeVector_pending : (writeVector d m y s).pending = s.pending := rfl
@[simp] theorem writeVector_returned : (writeVector d m y s).returned = s.returned := rfl

@[simp] theorem resetEngine_modulus : (resetEngine s).modulus = 26#32 := rfl
@[simp] theorem resetEngine_scalars : (resetEngine s).scalars = Vector.replicate _ 0#32 := rfl
@[simp] theorem resetEngine_vectors :
    (resetEngine s).vectors = Vector.replicate _ VectorReg.reset := rfl
@[simp] theorem resetEngine_matrices :
    (resetEngine s).matrices = Vector.replicate _ MatrixReg.reset := rfl
@[simp] theorem resetEngine_err : (resetEngine s).err = 0#4 := rfl
@[simp] theorem resetEngine_cp : (resetEngine s).cp = false := rfl
@[simp] theorem resetEngine_pending : (resetEngine s).pending = s.pending := rfl
@[simp] theorem resetEngine_returned : (resetEngine s).returned = s.returned := rfl

end

end Sys2Proof.Machine
end

