-- ==== Sys2Proof/Laws/Ops.lean ====
section
/-! SUPPORT. What the shared operations on registers do: words and integers, and reading back a value just written. -/

namespace Sys2Proof.Machine

/-! ## Words and integers -/

theorem s32_toWord {v : Int} (h0 : -2147483648 ≤ v) (h1 : v < 2147483648) : s32 (toWord v) = v := by
  rw [s32, toWord, BitVec.toInt_ofInt, Int.bmod_eq_of_le (by norm_num; exact h0) (by norm_num; exact h1)]

theorem toWord_s32 (w : Word) : toWord (s32 w) = w := BitVec.ofInt_toInt

theorem s32_lt (w : Word) : s32 w < 2147483648 := by
  have := @BitVec.toInt_lt 32 w; simpa [s32] using this

theorem s32_ge (w : Word) : -2147483648 ≤ s32 w := by
  have := @BitVec.le_toInt 32 w; simpa [s32] using this

theorem u32_toWord_natCast {m : Nat} (h : m < 4294967296) : u32 (toWord m) = m := by
  simp [u32, toWord, Nat.mod_eq_of_lt h]

/-- Every legal modulus lies in the range of R16. -/
theorem modulusLegal_iff (s : State) : modulusLegal s = true ↔ 2 ≤ modulusOf s := by
  simp [modulusLegal, Config.minModulus]

theorem orderLegal_iff (s : State) (k : RegNum) :
    orderLegal s k = true ↔ 2 ≤ ordOf s k ∧ ordOf s k ≤ 5 := by
  simp [orderLegal, Config.minOrder, Config.maxOrder]

theorem modulusOf_le (s : State) : modulusOf s ≤ 2147483647 := by
  have := s32_lt s.modulus; unfold modulusOf; omega

/-- A reduced value is read back from the word it is written to. -/
theorem s32_toWord_reduce {s : State} (hn : 2 ≤ modulusOf s) (x : Int) :
    s32 (toWord (reduce x (modulusOf s))) = reduce x (modulusOf s) := by
  have h0 := reduce_nonneg (show 0 < modulusOf s by omega) x
  have h1 := reduce_lt (show 0 < modulusOf s by omega) x
  have h2 := modulusOf_le s
  exact s32_toWord (by omega) (by omega)

/-! ## Indexes inside a register -/

theorem matrix_index_lt {m i j : Nat} (hi : i < m) (hj : j < m) : i * m + j < m * m := by
  calc i * m + j < i * m + m := by omega
    _ = (i + 1) * m := by ring
    _ ≤ m * m := Nat.mul_le_mul_right m hi

theorem square_le {m : Nat} (hm : m ≤ 5) : m * m ≤ 25 := Nat.mul_le_mul hm hm

theorem matrix_index_lt_words {m i j : Nat} (hm : m ≤ 5) (hi : i < m) (hj : j < m) : i * m + j < 25 :=
  (matrix_index_lt hi hj).trans_le (square_le hm)

theorem matrixWord_of_lt (r : MatrixReg) {f : Nat} (h : f < 25) : matrixWord r f = r.d[f] := by
  simp [matrixWord, h]

theorem vectorWord_of_lt (r : VectorReg) {f : Nat} (h : f < 5) : vectorWord r f = r.d[f] := by
  simp [vectorWord, h]

/-! ## Writing a value and reading it back -/

theorem MatrixReg.withValue_ord (m : Nat) (Y : IntMatrix) (r : MatrixReg) :
    (r.withValue m Y).ord = toWord m := rfl

theorem MatrixReg.withValue_d (m : Nat) (Y : IntMatrix) (r : MatrixReg) (f : Fin 25) :
    (r.withValue m Y).d[f] = if f.val < m * m then toWord (Y (f.val / m) (f.val % m)) else r.d[f] := by
  simp [MatrixReg.withValue]

/-- Everything writing an order-`m` value does to a matrix register (R22): the order, the entries read back, the
leftover words kept. -/
theorem MatrixReg.withValue_holds {m : Nat} {Y : IntMatrix} (r : MatrixReg) (hm : m ≤ 5)
    (hY : ∀ i < m, ∀ j < m, s32 (toWord (Y i j)) = Y i j) :
    u32 (r.withValue m Y).ord = m ∧
      (∀ i < m, ∀ j < m, matrixValue m (r.withValue m Y) i j = Y i j) ∧
      ∀ f : Fin 25, m * m ≤ f.val → (r.withValue m Y).d[f] = r.d[f] := by
  refine ⟨u32_toWord_natCast (by omega), fun i hi j hj => ?_, fun f hf => ?_⟩
  · have hlt := matrix_index_lt hi hj
    have h25 := matrix_index_lt_words hm hi hj
    rw [matrixValue, matrixWord_of_lt _ h25]
    have := MatrixReg.withValue_d m Y r ⟨i * m + j, h25⟩
    have hdiv : (i * m + j) / m = i := by
      rw [mul_comm, Nat.mul_add_div (by omega), Nat.div_eq_of_lt hj, add_zero]
    have hmod : (i * m + j) % m = j := by
      rw [mul_comm, Nat.mul_add_mod, Nat.mod_eq_of_lt hj]
    simp only [Fin.getElem_fin, hlt, if_true, hdiv, hmod] at this
    rw [this, hY i hi j hj]
  · rw [MatrixReg.withValue_d, if_neg (by omega)]

theorem VectorReg.withValue_d (m : Nat) (y : IntVector) (r : VectorReg) (f : Fin 5) :
    (r.withValue m y).d[f] = if f.val < m then toWord (y f.val) else r.d[f] := by
  simp [VectorReg.withValue]

/-- Everything writing a length-`m` value does to a vector register (R23). -/
theorem VectorReg.withValue_holds {m : Nat} {y : IntVector} (r : VectorReg) (hm : m ≤ 5)
    (hy : ∀ i < m, s32 (toWord (y i)) = y i) :
    u32 (r.withValue m y).len = m ∧
      (∀ i < m, vectorValue (r.withValue m y) i = y i) ∧
      ∀ f : Fin 5, m ≤ f.val → (r.withValue m y).d[f] = r.d[f] := by
  refine ⟨u32_toWord_natCast (by omega), fun i hi => ?_, fun f hf => ?_⟩
  · have h5 : i < 5 := by omega
    rw [vectorValue, vectorWord_of_lt _ h5]
    have := VectorReg.withValue_d m y r ⟨i, h5⟩
    simp only [Fin.getElem_fin, hi, if_true] at this
    rw [this, hy i hi]
  · rw [VectorReg.withValue_d, if_neg (by omega)]

/-! ## The value a matrix function gives depends on the entries inside the order alone -/

theorem minor_congr {m : Nat} {X X' : IntMatrix} (h : ∀ i < m + 1, ∀ j < m + 1, X i j = X' i j) (p q : Nat) :
    ∀ i < m, ∀ j < m, minor X p q i j = minor X' p q i j := by
  intro i hi j hj
  simp only [minor]
  exact h _ (by split <;> omega) _ (by split <;> omega)

theorem det_congr : ∀ (m : Nat) {X X' : IntMatrix}, (∀ i < m, ∀ j < m, X i j = X' i j) → det m X = det m X'
  | 0, _, _, _ => rfl
  | 1, _, _, h => h 0 (by omega) 0 (by omega)
  | m + 2, X, X', h => by
    simp only [det]
    refine sumTo_congr fun j hj => ?_
    rw [h 0 (by omega) j hj, det_congr (m + 1) (minor_congr h 0 j)]

theorem adj_congr {m : Nat} {X X' : IntMatrix} (h : ∀ i < m, ∀ j < m, X i j = X' i j) (i j : Nat) :
    adj m X i j = adj m X' i j := by
  cases m with
  | zero => rfl
  | succ k =>
    simp only [adj, cof, Nat.add_sub_cancel]
    rw [det_congr k (minor_congr h j i)]

end Sys2Proof.Machine
end

