-- ==== Sys2Proof/Laws/Exec.lean ====
section
/-! SUPPORT. What each command can answer, said once: one inversion lemma per meaning, and from them the shape of the
state after any command. -/

namespace Sys2Proof.Machine

/-- `s` with outcome `code` recorded and nothing else changed. -/
theorem complete_eq (code : OutcomeCode) (s : State) : complete code s = .next { s with err := code.code } := rfl

/-- Everything `MODINV` can answer (R55). -/
theorem execModinv_cases (d a : RegNum) (s : State) :
    (modulusOf s < 2 ∧ execModinv d a s = complete .badModulus s) ∨
    (2 ≤ modulusOf s ∧ gcdOf (reduce (scalarOf s a) (modulusOf s)) (modulusOf s) ≠ 1 ∧
      execModinv d a s = complete .notInvertible (setCoprime false s)) ∨
    (2 ≤ modulusOf s ∧ gcdOf (reduce (scalarOf s a) (modulusOf s)) (modulusOf s) = 1 ∧
      ∃ b, modInverse (reduce (scalarOf s a) (modulusOf s)) (modulusOf s) = some b ∧
        0 ≤ b ∧ b < modulusOf s ∧ scalarOf s a * b ≡ 1 [ZMOD modulusOf s] ∧
        execModinv d a s = complete .ok (setCoprime true (writeScalar d b s))) := by
  by_cases hn : 2 ≤ modulusOf s
  · right
    have hleg := (modulusLegal_iff s).2 hn
    have hred : reduce (reduce (scalarOf s a) (modulusOf s)) (modulusOf s) =
        reduce (scalarOf s a) (modulusOf s) :=
      reduce_of_range (reduce_nonneg (by omega) _) (reduce_lt (by omega) _)
    rcases modInverse_cases hn (reduce (scalarOf s a) (modulusOf s)) with ⟨hg, hm⟩ | ⟨hg, b, hm, h0, h1, h2⟩
    · exact .inl ⟨hn, hred ▸ hg, by simp [execModinv, hleg, hm]⟩
    · refine .inr ⟨hn, hred ▸ hg, b, hm, h0, h1, ?_, by simp [execModinv, hleg, hm]⟩
      exact ((reduce_modEq (by omega) _).symm.mul_right b).trans h2
  · exact .inl ⟨by omega, by simp [execModinv, modulusLegal, Config.minModulus, hn]⟩

/-- Everything `MDET` can answer (R65). -/
theorem execMdet_cases (d a : RegNum) (s : State) :
    (modulusOf s < 2 ∧ execMdet d a s = complete .badModulus s) ∨
    (2 ≤ modulusOf s ∧ ¬(2 ≤ ordOf s a ∧ ordOf s a ≤ 5) ∧ execMdet d a s = complete .badOrder s) ∨
    (2 ≤ modulusOf s ∧ (2 ≤ ordOf s a ∧ ordOf s a ≤ 5) ∧
      execMdet d a s = complete .ok
        (setCoprime (coprimeFlag (reduce (det (ordOf s a) (matOf s a)) (modulusOf s)) (modulusOf s))
          (writeScalar d (reduce (det (ordOf s a) (matOf s a)) (modulusOf s)) s))) := by
  have hl := modulusLegal_iff s
  have ho := orderLegal_iff s a
  by_cases hn : 2 ≤ modulusOf s
  · have := hl.2 hn
    by_cases hm : 2 ≤ ordOf s a ∧ ordOf s a ≤ 5
    · exact .inr (.inr ⟨hn, hm, by simp [execMdet, this, ho.2 hm]⟩)
    · have h2 : orderLegal s a = false := by rw [← Bool.not_eq_true, ho]; exact hm
      exact .inr (.inl ⟨hn, hm, by simp [execMdet, this, h2]⟩)
  · have : modulusLegal s = false := by rw [← Bool.not_eq_true, hl]; exact hn
    exact .inl ⟨by omega, by simp [execMdet, this]⟩

/-- Everything `MADJ` can answer (R66). -/
theorem execMadj_cases (d a : RegNum) (s : State) :
    (modulusOf s < 2 ∧ execMadj d a s = complete .badModulus s) ∨
    (2 ≤ modulusOf s ∧ ¬(2 ≤ ordOf s a ∧ ordOf s a ≤ 5) ∧ execMadj d a s = complete .badOrder s) ∨
    (2 ≤ modulusOf s ∧ (2 ≤ ordOf s a ∧ ordOf s a ≤ 5) ∧
      execMadj d a s = complete .ok
        (writeMatrix d (ordOf s a)
          (fun i j => reduce (adj (ordOf s a) (matOf s a) i j) (modulusOf s)) s)) := by
  have hl := modulusLegal_iff s
  have ho := orderLegal_iff s a
  by_cases hn : 2 ≤ modulusOf s
  · have := hl.2 hn
    by_cases hm : 2 ≤ ordOf s a ∧ ordOf s a ≤ 5
    · exact .inr (.inr ⟨hn, hm, by simp [execMadj, this, ho.2 hm]⟩)
    · have h2 : orderLegal s a = false := by rw [← Bool.not_eq_true, ho]; exact hm
      exact .inr (.inl ⟨hn, hm, by simp [execMadj, this, h2]⟩)
  · have : modulusLegal s = false := by rw [← Bool.not_eq_true, hl]; exact hn
    exact .inl ⟨by omega, by simp [execMadj, this]⟩

/-- Everything `inverseMod` can answer (R62). -/
theorem inverseMod_cases {n : Int} (hn : 2 ≤ n) (m : Nat) (X : IntMatrix) :
    (gcdOf (reduce (det m X) n) n ≠ 1 ∧ inverseMod m X n = none) ∨
    (gcdOf (reduce (det m X) n) n = 1 ∧ ∃ b, modInverse (reduce (det m X) n) n = some b ∧ 0 ≤ b ∧ b < n ∧
      det m X * b ≡ 1 [ZMOD n] ∧
      inverseMod m X n = some fun i j => reduce (adj m X i j * b) n) := by
  have hred : reduce (reduce (det m X) n) n = reduce (det m X) n :=
    reduce_of_range (reduce_nonneg (by omega) _) (reduce_lt (by omega) _)
  rcases modInverse_cases hn (reduce (det m X) n) with ⟨hg, hm⟩ | ⟨hg, b, hm, h0, h1, h2⟩
  · exact .inl ⟨hred ▸ hg, by simp [inverseMod, hm]⟩
  · refine .inr ⟨hred ▸ hg, b, hm, h0, h1, ?_, by simp [inverseMod, hm]⟩
    exact ((reduce_modEq (by omega) _).symm.mul_right b).trans h2

/-- Everything `MINV` can answer (R67). -/
theorem execMinv_cases (d a : RegNum) (s : State) :
    (modulusOf s < 2 ∧ execMinv d a s = complete .badModulus s) ∨
    (2 ≤ modulusOf s ∧ ¬(2 ≤ ordOf s a ∧ ordOf s a ≤ 5) ∧ execMinv d a s = complete .badOrder s) ∨
    (2 ≤ modulusOf s ∧ (2 ≤ ordOf s a ∧ ordOf s a ≤ 5) ∧
      gcdOf (reduce (det (ordOf s a) (matOf s a)) (modulusOf s)) (modulusOf s) ≠ 1 ∧
      execMinv d a s = complete .notInvertible (setCoprime false s)) ∨
    (2 ≤ modulusOf s ∧ (2 ≤ ordOf s a ∧ ordOf s a ≤ 5) ∧
      gcdOf (reduce (det (ordOf s a) (matOf s a)) (modulusOf s)) (modulusOf s) = 1 ∧
      ∃ b, modInverse (reduce (det (ordOf s a) (matOf s a)) (modulusOf s)) (modulusOf s) = some b ∧
        0 ≤ b ∧ b < modulusOf s ∧ det (ordOf s a) (matOf s a) * b ≡ 1 [ZMOD modulusOf s] ∧
        execMinv d a s = complete .ok (setCoprime true
          (writeMatrix d (ordOf s a)
            (fun i j => reduce (adj (ordOf s a) (matOf s a) i j * b) (modulusOf s)) s))) := by
  have hl := modulusLegal_iff s
  have ho := orderLegal_iff s a
  by_cases hn : 2 ≤ modulusOf s
  · have h1 := hl.2 hn
    by_cases hm : 2 ≤ ordOf s a ∧ ordOf s a ≤ 5
    · have h2 := ho.2 hm
      rcases inverseMod_cases hn (ordOf s a) (matOf s a) with ⟨hg, he⟩ | ⟨hg, b, hb, b0, b1, b2, he⟩
      · exact .inr (.inr (.inl ⟨hn, hm, hg, by simp [execMinv, h1, h2, he]⟩))
      · exact .inr (.inr (.inr ⟨hn, hm, hg, b, hb, b0, b1, b2, by simp [execMinv, h1, h2, he]⟩))
    · have h2 : orderLegal s a = false := by rw [← Bool.not_eq_true, ho]; exact hm
      exact .inr (.inl ⟨hn, hm, by simp [execMinv, h1, h2]⟩)
  · have : modulusLegal s = false := by rw [← Bool.not_eq_true, hl]; exact hn
    exact .inl ⟨by omega, by simp [execMinv, this]⟩

/-- Everything `MMUL` can answer (R70). -/
theorem execMmul_cases (d a b : RegNum) (s : State) :
    (modulusOf s < 2 ∧ execMmul d a b s = complete .badModulus s) ∨
    (2 ≤ modulusOf s ∧ ¬(2 ≤ ordOf s a ∧ ordOf s a ≤ 5) ∧ execMmul d a b s = complete .badOrder s) ∨
    (2 ≤ modulusOf s ∧ (2 ≤ ordOf s a ∧ ordOf s a ≤ 5) ∧ ordOf s b ≠ ordOf s a ∧
      execMmul d a b s = complete .dimensionMismatch s) ∨
    (2 ≤ modulusOf s ∧ (2 ≤ ordOf s a ∧ ordOf s a ≤ 5) ∧ ordOf s b = ordOf s a ∧
      execMmul d a b s = complete .ok
        (writeMatrix d (ordOf s a)
          (productMod (ordOf s a) (matOf s a) (matOf s b) (modulusOf s)) s)) := by
  have hl := modulusLegal_iff s
  have ho := orderLegal_iff s a
  by_cases hn : 2 ≤ modulusOf s
  · have h1 := hl.2 hn
    by_cases hm : 2 ≤ ordOf s a ∧ ordOf s a ≤ 5
    · have h2 := ho.2 hm
      by_cases hb : ordOf s b = ordOf s a
      · exact .inr (.inr (.inr ⟨hn, hm, hb, by simp [execMmul, h1, h2, hb]⟩))
      · exact .inr (.inr (.inl ⟨hn, hm, hb, by simp [execMmul, h1, h2, hb]⟩))
    · have h2 : orderLegal s a = false := by rw [← Bool.not_eq_true, ho]; exact hm
      exact .inr (.inl ⟨hn, hm, by simp [execMmul, h1, h2]⟩)
  · have : modulusLegal s = false := by rw [← Bool.not_eq_true, hl]; exact hn
    exact .inl ⟨by omega, by simp [execMmul, this]⟩

/-- Everything `MVMUL` can answer (R71). -/
theorem execMvmul_cases (d a b : RegNum) (s : State) :
    (modulusOf s < 2 ∧ execMvmul d a b s = complete .badModulus s) ∨
    (2 ≤ modulusOf s ∧ ¬(2 ≤ ordOf s a ∧ ordOf s a ≤ 5) ∧ execMvmul d a b s = complete .badOrder s) ∨
    (2 ≤ modulusOf s ∧ (2 ≤ ordOf s a ∧ ordOf s a ≤ 5) ∧ lenOf s b ≠ ordOf s a ∧
      execMvmul d a b s = complete .sizeMismatch s) ∨
    (2 ≤ modulusOf s ∧ (2 ≤ ordOf s a ∧ ordOf s a ≤ 5) ∧ lenOf s b = ordOf s a ∧
      execMvmul d a b s = complete .ok
        (writeVector d (ordOf s a)
          (vectorProductMod (ordOf s a) (matOf s a) (vecOf s b) (modulusOf s)) s)) := by
  have hl := modulusLegal_iff s
  have ho := orderLegal_iff s a
  by_cases hn : 2 ≤ modulusOf s
  · have h1 := hl.2 hn
    by_cases hm : 2 ≤ ordOf s a ∧ ordOf s a ≤ 5
    · have h2 := ho.2 hm
      by_cases hb : lenOf s b = ordOf s a
      · exact .inr (.inr (.inr ⟨hn, hm, hb, by simp [execMvmul, h1, h2, hb]⟩))
      · exact .inr (.inr (.inl ⟨hn, hm, hb, by simp [execMvmul, h1, h2, hb]⟩))
    · have h2 : orderLegal s a = false := by rw [← Bool.not_eq_true, ho]; exact hm
      exact .inr (.inl ⟨hn, hm, by simp [execMvmul, h1, h2]⟩)
  · have : modulusLegal s = false := by rw [← Bool.not_eq_true, hl]; exact hn
    exact .inl ⟨by omega, by simp [execMvmul, this]⟩

/-! ## What a command that ended `OK` did -/

/-- A state whose matrix registers are those of a written matrix reads that matrix back from the destination. -/
theorem matOf_of_writeMatrix {s t : State} {d : RegNum} {m : Nat} {Y : IntMatrix}
    (ht : t.matrices = (writeMatrix d m Y s).matrices) (hm : m ≤ 5)
    (hY : ∀ i < m, ∀ j < m, s32 (toWord (Y i j)) = Y i j) :
    ordOf t d = m ∧ ∀ i < m, ∀ j < m, matOf t d i j = Y i j := by
  have e : t.matrices[d] = s.matrices[d].withValue m Y := by rw [ht]; simp
  obtain ⟨x, y, _⟩ := MatrixReg.withValue_holds (r := s.matrices[d]) hm hY
  have o : ordOf t d = m := by rw [ordOf, e, x]
  exact ⟨o, fun i hi j hj => by rw [matOf, o, e, y i hi j hj]⟩

/-- The other matrix registers are as before. -/
theorem matrices_of_writeMatrix_ne {s t : State} {d k : RegNum} {m : Nat} {Y : IntMatrix} (hk : k ≠ d)
    (ht : t.matrices = (writeMatrix d m Y s).matrices) : t.matrices[k] = s.matrices[k] := by
  have : d.val ≠ k.val := fun e => hk (Fin.ext e.symm)
  rw [ht]; simp [this]

/-- A state whose vector registers are those of a written vector reads that vector back from the destination. -/
theorem vecOf_of_writeVector {s t : State} {d : RegNum} {m : Nat} {y : IntVector}
    (ht : t.vectors = (writeVector d m y s).vectors) (hm : m ≤ 5) (hy : ∀ i < m, s32 (toWord (y i)) = y i) :
    lenOf t d = m ∧ ∀ i < m, vecOf t d i = y i := by
  have e : t.vectors[d] = s.vectors[d].withValue m y := by rw [ht]; simp
  obtain ⟨x, h, _⟩ := VectorReg.withValue_holds (r := s.vectors[d]) hm hy
  exact ⟨by rw [lenOf, e, x], fun i hi => by rw [vecOf, e, h i hi]⟩

theorem code_of_complete_ok {c : OutcomeCode} {s t : State} (h : complete c s = .next t) (ht : t.err = 0#4) :
    c = .ok := by
  cases h; cases c <;> first | rfl | exact absurd ht (by simp [OutcomeCode.code])

theorem execModinv_ok {d a : RegNum} {s t : State} (h : execModinv d a s = .next t) (ht : t.err = 0#4) :
    2 ≤ modulusOf s ∧ ∃ b, 0 ≤ b ∧ b < modulusOf s ∧ scalarOf s a * b ≡ 1 [ZMOD modulusOf s] ∧
      scalarOf t d = b ∧ t = { setCoprime true (writeScalar d b s) with err := 0#4 } := by
  rcases execModinv_cases d a s with ⟨h1, h'⟩ | ⟨h1, h2, h'⟩ | ⟨h1, h2, b, _, b0, b1, b2, h'⟩ <;>
    have e := h'.symm.trans h
  · cases code_of_complete_ok e ht
  · cases code_of_complete_ok e ht
  · cases e
    have hl := modulusOf_le s
    refine ⟨h1, b, b0, b1, b2, ?_, rfl⟩
    rw [scalarOf]
    simp only [setCoprime_scalars, writeScalar_scalars, Fin.getElem_fin, Vector.getElem_set_self]
    exact s32_toWord (by omega) (by omega)

theorem execMdet_ok {d a : RegNum} {s t : State} (h : execMdet d a s = .next t) (ht : t.err = 0#4) :
    2 ≤ modulusOf s ∧ (2 ≤ ordOf s a ∧ ordOf s a ≤ 5) ∧
      t.cp = isInvertibleMod (ordOf s a) (matOf s a) (modulusOf s) ∧
      t = { writeScalar d (reduce (det (ordOf s a) (matOf s a)) (modulusOf s)) s with err := 0#4, cp := t.cp } := by
  rcases execMdet_cases d a s with ⟨h1, h'⟩ | ⟨h1, h2, h'⟩ | ⟨h1, h2, h'⟩ <;> have e := h'.symm.trans h
  · cases code_of_complete_ok e ht
  · cases code_of_complete_ok e ht
  · cases e; exact ⟨h1, h2, rfl, rfl⟩

theorem execMadj_ok {d a : RegNum} {s t : State} (h : execMadj d a s = .next t) (ht : t.err = 0#4) :
    2 ≤ modulusOf s ∧ (2 ≤ ordOf s a ∧ ordOf s a ≤ 5) ∧
      t = { writeMatrix d (ordOf s a) (fun i j => reduce (adj (ordOf s a) (matOf s a) i j) (modulusOf s)) s with
        err := 0#4 } := by
  rcases execMadj_cases d a s with ⟨h1, h'⟩ | ⟨h1, h2, h'⟩ | ⟨h1, h2, h'⟩ <;> have e := h'.symm.trans h
  · cases code_of_complete_ok e ht
  · cases code_of_complete_ok e ht
  · cases e; exact ⟨h1, h2, rfl⟩

theorem execMinv_ok {d a : RegNum} {s t : State} (h : execMinv d a s = .next t) (ht : t.err = 0#4) :
    2 ≤ modulusOf s ∧ (2 ≤ ordOf s a ∧ ordOf s a ≤ 5) ∧
      ∃ b, 0 ≤ b ∧ b < modulusOf s ∧ det (ordOf s a) (matOf s a) * b ≡ 1 [ZMOD modulusOf s] ∧
        t = { writeMatrix d (ordOf s a)
          (fun i j => reduce (adj (ordOf s a) (matOf s a) i j * b) (modulusOf s)) s with err := 0#4, cp := true } := by
  rcases execMinv_cases d a s with ⟨h1, h'⟩ | ⟨h1, h2, h'⟩ | ⟨h1, h2, _, h'⟩ | ⟨h1, h2, h3, b, _, b0, b1, b2, h'⟩ <;>
    have e := h'.symm.trans h
  · cases code_of_complete_ok e ht
  · cases code_of_complete_ok e ht
  · cases code_of_complete_ok e ht
  · cases e; exact ⟨h1, h2, b, b0, b1, b2, rfl⟩

theorem execMmul_ok {d a b : RegNum} {s t : State} (h : execMmul d a b s = .next t) (ht : t.err = 0#4) :
    2 ≤ modulusOf s ∧ (2 ≤ ordOf s a ∧ ordOf s a ≤ 5) ∧ ordOf s b = ordOf s a ∧
      t = { writeMatrix d (ordOf s a) (productMod (ordOf s a) (matOf s a) (matOf s b) (modulusOf s)) s with
        err := 0#4 } := by
  rcases execMmul_cases d a b s with ⟨h1, h'⟩ | ⟨h1, h2, h'⟩ | ⟨h1, h2, _, h'⟩ | ⟨h1, h2, h3, h'⟩ <;>
    have e := h'.symm.trans h
  · cases code_of_complete_ok e ht
  · cases code_of_complete_ok e ht
  · cases code_of_complete_ok e ht
  · cases e; exact ⟨h1, h2, h3, rfl⟩

theorem execMvmul_ok {d a b : RegNum} {s t : State} (h : execMvmul d a b s = .next t) (ht : t.err = 0#4) :
    2 ≤ modulusOf s ∧ (2 ≤ ordOf s a ∧ ordOf s a ≤ 5) ∧ lenOf s b = ordOf s a ∧
      t = { writeVector d (ordOf s a) (vectorProductMod (ordOf s a) (matOf s a) (vecOf s b) (modulusOf s)) s with
        err := 0#4 } := by
  rcases execMvmul_cases d a b s with ⟨h1, h'⟩ | ⟨h1, h2, h'⟩ | ⟨h1, h2, _, h'⟩ | ⟨h1, h2, h3, h'⟩ <;>
    have e := h'.symm.trans h
  · cases code_of_complete_ok e ht
  · cases code_of_complete_ok e ht
  · cases code_of_complete_ok e ht
  · cases e; exact ⟨h1, h2, h3, rfl⟩

end Sys2Proof.Machine
end

