-- ==== Sys2Proof/Laws/PerInstr.lean ====
section
/-! SUPPORT. Facts about commands as syntax, one lemma per constructor of `Instr`. -/

namespace Sys2Proof.Laws

/-! The word a command is written as is a well-formed word (R39, R46). -/

namespace EncodedWordWellFormed

def Statement (i : Instr) : Prop := wellFormedWord (encode i) = true

theorem modinv : ∀ d a, Statement (.modinv d a) := by unfold Statement; decide
theorem mdet : ∀ d a, Statement (.mdet d a) := by unfold Statement; decide
theorem madj : ∀ d a, Statement (.madj d a) := by unfold Statement; decide
theorem minv : ∀ d a, Statement (.minv d a) := by unfold Statement; decide
theorem mmul : ∀ d a b, Statement (.mmul d a b) := by unfold Statement; decide
theorem mvmul : ∀ d a b, Statement (.mvmul d a b) := by unfold Statement; decide

end EncodedWordWellFormed

end Sys2Proof.Laws
end

