-- ==== Sys2Proof/Laws/Port.lean ====
section
/-! SUPPORT. The port map, the two transactions and one step: which register each index names, what reading after
writing gives, and that a step always answers. -/

namespace Sys2Proof.Machine

/-! ## The port map -/

theorem portReg_scalar : ∀ i : Fin 4, portReg (BitVec.ofNat 8 (0x04 + i.val)) = .scalar i := by decide

theorem portReg_vectorLen : ∀ k : Fin 4, portReg (BitVec.ofNat 8 (0x20 + 8 * k.val)) = .vectorLen k := by decide

theorem portReg_vectorData : ∀ (k : Fin 4) (i : Fin 5),
    portReg (BitVec.ofNat 8 (0x21 + 8 * k.val + i.val)) = .vectorData k i := by decide

theorem portReg_matrixOrd : ∀ k : Fin 4, portReg (BitVec.ofNat 8 (0x40 + 32 * k.val)) = .matrixOrd k := by decide

theorem portReg_matrixData : ∀ (k : Fin 4) (f : Fin 25),
    portReg (BitVec.ofNat 8 (0x41 + 32 * k.val + f.val)) = .matrixData k f := by decide

/-- The index of every named register names it. -/
theorem portReg_index (r : PortReg) : portReg r.index = r := by
  cases r with
  | scalar i => exact portReg_scalar i
  | vectorLen k => exact portReg_vectorLen k
  | vectorData k i => exact portReg_vectorData k i
  | matrixOrd k => exact portReg_matrixOrd k
  | matrixData k f => exact portReg_matrixData k f
  | _ => rfl

/-- An index that names a register is that register's index: no two indexes name the same one. -/
theorem index_portReg : ∀ idx : BitVec 8, portReg idx ≠ .reserved → (portReg idx).index = idx := by decide

theorem portReg_injective {i j : BitVec 8} (h : portReg i = portReg j) (hr : portReg i ≠ .reserved) : i = j := by
  rw [← index_portReg i hr, h, index_portReg j (h ▸ hr)]

/-- The reserved indexes are R31's list. -/
theorem portReg_reserved_iff : ∀ idx : BitVec 8, portReg idx = .reserved ↔ ReservedIndex idx := by decide

theorem index_of_toNat {idx : BitVec 8} {n : Nat} (h : idx.toNat = n) : idx = BitVec.ofNat 8 n := by
  subst h; simp

/-! ## The status word -/

theorem statusWord_toNat (s : State) : (statusWord s).toNat = (if s.cp then 256 else 0) + s.err.toNat := by
  have key : ∀ (b : Bool) (e : BitVec 4),
      (((BitVec.ofBool b).setWidth 32 <<< 8) ||| e.setWidth 32).toNat = (if b then 256 else 0) + e.toNat := by
    decide
  exact key _ _

/-! ## Reading -/

/-- A read depends on the engine's state alone. -/
theorem PortReg.read_congr {s t : State} (h : SameEngine s t) (r : PortReg) : r.read s = r.read t := by
  obtain ⟨h1, h2, h3, h4, h5, h6⟩ := h
  cases r <;> simp [PortReg.read, statusWord, h1, h2, h3, h4, h5, h6]

@[simp] theorem PortReg.read_pending (r : PortReg) (s : State) (l : List HostMove) :
    r.read { s with pending := l } = r.read s := PortReg.read_congr ⟨rfl, rfl, rfl, rfl, rfl, rfl⟩ r

/-! ## Writing -/

/-- What writing a register other than `CMD` does (R30): the register reads the word written unless it is `STATUS` or
reserved, every other register reads as before, and the host's own fields stay. -/
theorem PortReg.write_spec (r : PortReg) (w : Word) (s : State) (hr : r ≠ .cmd) :
    ∃ t, r.write w s = .next t ∧ t.pending = s.pending ∧ t.returned = s.returned ∧
      (r = .status ∨ r = .reserved → t = s) ∧
      (r ≠ .status → r ≠ .reserved → r.read t = w) ∧ ∀ q : PortReg, q ≠ r → q.read t = q.read s := by
  cases r with
  | cmd => exact absurd rfl hr
  | status => exact ⟨s, by simp [PortReg.write]⟩
  | reserved => exact ⟨s, by simp [PortReg.write]⟩
  | modulus =>
    refine ⟨_, rfl, rfl, rfl, by simp, by simp [PortReg.read], fun q hq => ?_⟩
    cases q <;> simp_all [PortReg.read, statusWord]
  | scalar i =>
    refine ⟨_, rfl, rfl, rfl, by simp, by simp [PortReg.read], fun q hq => ?_⟩
    cases q with
    | scalar j =>
      have : i.val ≠ j.val := fun h => hq (by rw [Fin.ext h])
      simp [PortReg.read, this]
    | _ => simp [PortReg.read, statusWord]
  | vectorLen k =>
    refine ⟨_, rfl, rfl, rfl, by simp, by simp [PortReg.read], fun q hq => ?_⟩
    cases q with
    | vectorLen j =>
      have : k.val ≠ j.val := fun h => hq (by rw [Fin.ext h])
      simp [PortReg.read, this]
    | vectorData j i =>
      by_cases h : k.val = j.val
      · have : k = j := Fin.ext h
        subst this; simp [PortReg.read]
      · simp [PortReg.read, h]
    | _ => simp [PortReg.read, statusWord]
  | vectorData k i =>
    refine ⟨_, rfl, rfl, rfl, by simp, by simp [PortReg.read], fun q hq => ?_⟩
    cases q with
    | vectorLen j =>
      by_cases h : k.val = j.val
      · have : k = j := Fin.ext h
        subst this; simp [PortReg.read]
      · simp [PortReg.read, h]
    | vectorData j i' =>
      by_cases h : k.val = j.val
      · have : k = j := Fin.ext h
        subst this
        have : i.val ≠ i'.val := fun h => hq (by rw [Fin.ext h])
        simp [PortReg.read, this]
      · simp [PortReg.read, h]
    | _ => simp [PortReg.read, statusWord]
  | matrixOrd k =>
    refine ⟨_, rfl, rfl, rfl, by simp, by simp [PortReg.read], fun q hq => ?_⟩
    cases q with
    | matrixOrd j =>
      have : k.val ≠ j.val := fun h => hq (by rw [Fin.ext h])
      simp [PortReg.read, this]
    | matrixData j i =>
      by_cases h : k.val = j.val
      · have : k = j := Fin.ext h
        subst this; simp [PortReg.read]
      · simp [PortReg.read, h]
    | _ => simp [PortReg.read, statusWord]
  | matrixData k f =>
    refine ⟨_, rfl, rfl, rfl, by simp, by simp [PortReg.read], fun q hq => ?_⟩
    cases q with
    | matrixOrd j =>
      by_cases h : k.val = j.val
      · have : k = j := Fin.ext h
        subst this; simp [PortReg.read]
      · simp [PortReg.read, h]
    | matrixData j i' =>
      by_cases h : k.val = j.val
      · have : k = j := Fin.ext h
        subst this
        have : f.val ≠ i'.val := fun h => hq (by rw [Fin.ext h])
        simp [PortReg.read, this]
      · simp [PortReg.read, h]
    | _ => simp [PortReg.read, statusWord]

/-! ## A command, a move, a step -/

/-- What every command leaves of the state (R77, and what R16, R17 to R19 say is written by none): an outcome code, `MOD`
and the host's own fields as they were. -/
theorem exec_shape (i : Instr) (s : State) :
    ∃ t, exec i s = .next t ∧ t.modulus = s.modulus ∧ t.pending = s.pending ∧ t.returned = s.returned := by
  cases i with
  | modinv d a =>
    rcases execModinv_cases d a s with ⟨_, h⟩ | ⟨_, _, h⟩ | ⟨_, _, b, _, _, _, _, h⟩ <;>
      exact ⟨_, h, rfl, rfl, rfl⟩
  | mdet d a =>
    rcases execMdet_cases d a s with ⟨_, h⟩ | ⟨_, _, h⟩ | ⟨_, _, h⟩ <;>
      exact ⟨_, h, rfl, rfl, rfl⟩
  | madj d a =>
    rcases execMadj_cases d a s with ⟨_, h⟩ | ⟨_, _, h⟩ | ⟨_, _, h⟩ <;>
      exact ⟨_, h, rfl, rfl, rfl⟩
  | minv d a =>
    rcases execMinv_cases d a s with ⟨_, h⟩ | ⟨_, _, h⟩ | ⟨_, _, _, h⟩ | ⟨_, _, _, b, _, _, _, _, h⟩ <;>
      exact ⟨_, h, rfl, rfl, rfl⟩
  | mmul d a b =>
    rcases execMmul_cases d a b s with ⟨_, h⟩ | ⟨_, _, h⟩ | ⟨_, _, _, h⟩ | ⟨_, _, _, h⟩ <;>
      exact ⟨_, h, rfl, rfl, rfl⟩
  | mvmul d a b =>
    rcases execMvmul_cases d a b s with ⟨_, h⟩ | ⟨_, _, h⟩ | ⟨_, _, _, h⟩ | ⟨_, _, _, h⟩ <;>
      exact ⟨_, h, rfl, rfl, rfl⟩

theorem executeCommand_shape (w : Word) (s : State) :
    ∃ t, executeCommand w s = .next t ∧ t.modulus = s.modulus ∧ t.pending = s.pending ∧ t.returned = s.returned := by
  unfold executeCommand
  cases decode w with
  | command i => exact exec_shape i s
  | illegal why => exact ⟨_, rfl, rfl, rfl, rfl⟩

/-- Every move of the host is served, and serving one takes nothing from the moves to come. -/
theorem serve_answers (move : HostMove) (s : State) : ∃ t, serve move s = .next t ∧ t.pending = s.pending := by
  cases move with
  | reset => exact ⟨_, rfl, rfl⟩
  | read idx => exact ⟨_, rfl, rfl⟩
  | write idx w =>
    by_cases h : portReg idx = .cmd
    · obtain ⟨t, h1, _, h2, _⟩ := executeCommand_shape w s
      exact ⟨t, by rw [serve, portWrite, h, PortReg.write, h1], h2⟩
    · obtain ⟨t, h1, h2, _⟩ := PortReg.write_spec _ w s h
      exact ⟨t, h1, h2⟩

theorem step_nil {s : State} (h : s.pending = []) : step s = .next s := by simp [step, h]

theorem step_cons {s : State} {move : HostMove} {rest : List HostMove} (h : s.pending = move :: rest) :
    step s = serve move { s with pending := rest } := by simp [step, h]

/-- The state with the host's own two fields replaced. -/
def withHost (p : List HostMove) (q : List Word) (s : State) : State := { s with pending := p, returned := q }

/-- An answer with the host's own two fields replaced in its state. -/
def Answer.mapState (f : State → State) : Answer → Answer
  | .next s => .next (f s)
  | .fault r => .fault r
  | .refused r => .refused r

/-- A command neither reads nor writes the host's own two fields (R25). -/
theorem exec_withHost (i : Instr) (p : List HostMove) (q : List Word) (s : State) :
    exec i (withHost p q s) = Answer.mapState (withHost p q) (exec i s) := by
  have e1 : modulusLegal (withHost p q s) = modulusLegal s := rfl
  have e2 : ∀ a, orderLegal (withHost p q s) a = orderLegal s a := fun _ => rfl
  have e3 : modulusOf (withHost p q s) = modulusOf s := rfl
  have e4 : ∀ a, scalarOf (withHost p q s) a = scalarOf s a := fun _ => rfl
  have e5 : ∀ a, ordOf (withHost p q s) a = ordOf s a := fun _ => rfl
  have e6 : ∀ a, lenOf (withHost p q s) a = lenOf s a := fun _ => rfl
  have e7 : ∀ a, matOf (withHost p q s) a = matOf s a := fun _ => rfl
  have e8 : ∀ a, vecOf (withHost p q s) a = vecOf s a := fun _ => rfl
  cases i <;>
    simp only [exec, execModinv, execMdet, execMadj, execMinv, execMmul, execMvmul, e1, e2, e3, e4, e5, e6, e7, e8] <;>
    repeat' split
  all_goals rfl
theorem executeCommand_withHost (w : Word) (p : List HostMove) (q : List Word) (s : State) :
    executeCommand w (withHost p q s) = Answer.mapState (withHost p q) (executeCommand w s) := by
  unfold executeCommand
  split
  · exact exec_withHost _ p q s
  · rfl

/-- Serving a move neither reads nor writes the moves to come (R35). -/
theorem serve_pending (move : HostMove) (p : List HostMove) (s : State) :
    serve move { s with pending := p } = Answer.mapState (fun t => { t with pending := p }) (serve move s) := by
  cases move with
  | reset => rfl
  | read idx => simp [serve, portRead, Answer.mapState]
  | write idx w =>
    simp only [serve, portWrite]
    cases h : portReg idx with
    | cmd =>
      have e := executeCommand_withHost w p s.returned s
      obtain ⟨t, h1, _, _, h2⟩ := executeCommand_shape w s
      rw [h1] at e
      have h1' : PortReg.cmd.write w s = .next t := h1
      exact e.trans (by simp only [h1', Answer.mapState, withHost, h2])
    | _ => rfl

@[simp] theorem run_zero (s : State) : Host.Core.run core 0 s = .next s := rfl

/-- A run goes through the state its first step answers. -/
theorem run_succ {s t : State} (h : step s = .next t) (k : Nat) :
    Host.Core.run core (k + 1) s = Host.Core.run core k t := by
  have : core.step s = .next t := h
  simp only [Host.Core.run, this]

theorem portReg_eq_cmd_iff : ∀ idx : BitVec 8, portReg idx = .cmd ↔ idx = 0x00#8 := by decide

theorem portReg_eq_status_iff : ∀ idx : BitVec 8, portReg idx = .status ↔ idx = 0x01#8 := by decide

end Sys2Proof.Machine
end

