-- ==== Sys2Proof/Tests/Slice0.lean ====
section
/-! SUPPORT. Tests of the model and the witnesses of the statements' hypotheses. Expected results are those of
spec/95_test_vectors.md (the vector is named at each test) or of the rule cited. -/

namespace Sys2Proof.Tests

open Sys2Proof.Machine

/-! ## Building states and looking at answers -/

/-- A matrix register of order `m` whose first data words are `xs`, the others 0. -/
def matrixReg (m : Nat) (xs : List Int) : MatrixReg :=
  { ord := BitVec.ofNat 32 m, d := Vector.ofFn fun f => BitVec.ofInt 32 (xs.getD f.val 0) }

/-- A vector register of length `m` whose first data words are `xs`, the others 0. -/
def vectorReg (m : Nat) (xs : List Int) : VectorReg :=
  { len := BitVec.ofNat 32 m, d := Vector.ofFn fun f => BitVec.ofInt 32 (xs.getD f.val 0) }

def loadModulus (v : Int) (s : State) : State := { s with modulus := BitVec.ofInt 32 v }
def loadScalar (i : RegNum) (v : Int) (s : State) : State :=
  { s with scalars := s.scalars.set i (BitVec.ofInt 32 v) }
def loadVector (k : RegNum) (r : VectorReg) (s : State) : State := { s with vectors := s.vectors.set k r }
def loadMatrix (k : RegNum) (r : MatrixReg) (s : State) : State := { s with matrices := s.matrices.set k r }
def hostDoes (moves : List HostMove) (s : State) : State := { s with pending := moves }

/-- The answer is a next state and it passes the test `p`. -/
def after (o : Answer) (p : State → Bool) : Bool :=
  match o with
  | .next t => p t
  | .fault _ => false
  | .refused _ => false

theorem exists_next {o : Answer} {p : State → Bool} (h : after o p = true) : ∃ t, o = .next t ∧ p t = true := by
  cases o with
  | next t => exact ⟨t, rfl, h⟩
  | fault _ => cases h
  | refused _ => cases h

/-- The order word and the leading data words of a matrix register, read as integers. -/
def matrixIs (r : MatrixReg) (m : Nat) (xs : List Int) : Bool :=
  r.ord.toNat == m && (r.d.toList.take xs.length).map BitVec.toInt == xs

/-- The length word and the leading data words of a vector register, read as integers. -/
def vectorIs (r : VectorReg) (m : Nat) (xs : List Int) : Bool :=
  r.len.toNat == m && (r.d.toList.take xs.length).map BitVec.toInt == xs

/-- The order-3 key of D0's scenario A (X1). -/
def keyA : MatrixReg := matrixReg 3 [6, 24, 1, 13, 16, 10, 20, 17, 15]

/-- Modulus 26; `S0` = 7; `V0` = "HE"; `M0` = rows (3, 3), (2, 5), invertible; `M1` = rows (1, 2), (3, 4), not
invertible; `M2` of order 3. -/
def demo : State :=
  loadScalar 0 7 <| loadVector 0 (vectorReg 2 [7, 4]) <| loadMatrix 0 (matrixReg 2 [3, 3, 2, 5]) <|
    loadMatrix 1 (matrixReg 2 [1, 2, 3, 4]) <| loadMatrix 2 keyA State.reset

/-! ## Well-formed words: each check refuses an ill-formed one -/

theorem test_reserved_bit_is_ill_formed :
    reservedBitsZero 0x00000401#32 = false ∧ wellFormedWord 0x00000401#32 = false := by decide

theorem test_unassigned_opcode_is_ill_formed :
    opcodeAssigned 0x00000000#32 = false ∧ opcodeAssigned 0x00000007#32 = false ∧
    wellFormedWord 0x00000000#32 = false ∧ wellFormedWord 0x00000007#32 = false := by decide

theorem test_second_source_is_ill_formed :
    secondSourceAllowed 0x00010101#32 = false ∧ wellFormedWord 0x00010101#32 = false := by decide

theorem test_legal_words_are_well_formed :
    wellFormedWord 0x00000001#32 = true ∧ wellFormedWord 0x00033306#32 = true := by decide

/-! ## Decoding: words written out field by field (R39: 31..18 zero, rb 17..16, 15..14 zero, ra 13..12, 11..10 zero,
rd 9..8, op 7..0) -/

theorem test_decode_modinv : decode 0b00000000000000_00_00_11_00_10_00000001#32 = .command (.modinv 2 3) := by decide
theorem test_decode_mdet : decode 0b00000000000000_00_00_01_00_00_00000010#32 = .command (.mdet 0 1) := by decide
theorem test_decode_madj : decode 0b00000000000000_00_00_00_00_01_00000011#32 = .command (.madj 1 0) := by decide
theorem test_decode_minv : decode 0b00000000000000_00_00_00_00_10_00000100#32 = .command (.minv 2 0) := by decide
theorem test_decode_mmul : decode 0b00000000000000_01_00_10_00_11_00000101#32 = .command (.mmul 3 2 1) := by decide
theorem test_decode_mvmul : decode 0b00000000000000_10_00_00_00_01_00000110#32 = .command (.mvmul 1 0 2) := by decide

/-- T0.6 to T0.21. -/
theorem test_decode_illegal :
    [0x00000000#32, 0x00000007#32, 0x000000FF#32, 0x00000100#32, 0x00010101#32, 0x00020002#32, 0x00010003#32,
      0x00030004#32, 0x00000401#32, 0x00000805#32, 0x00004001#32, 0x00008006#32, 0x00040001#32, 0x00080005#32,
      0x00100006#32, 0x80000001#32].all (fun w => (decode w).toOption == none) = true := by decide

theorem test_decode_table_word :
    decodeTableWord 32 0x00012305 = some (.mmul 3 2 1) ∧ decodeTableWord 32 0x00000007 = none := by decide

/-- T0's assembler check. -/
theorem test_encode :
    encode (.modinv 2 3) = 0x00003201#32 ∧ encode (.mdet 2 0) = 0x00000202#32 ∧ encode (.madj 0 0) = 0x00000003#32 ∧
    encode (.minv 1 0) = 0x00000104#32 ∧ encode (.mmul 3 1 2) = 0x00021305#32 ∧
    encode (.mvmul 2 1 1) = 0x00011206#32 := by decide

/-- R46's examples. -/
theorem test_assembly_text :
    assemblyText (.modinv 2 3) = "MODINV S2, S3" ∧ assemblyText (.mdet 0 1) = "MDET S0, M1" ∧
    assemblyText (.minv 1 0) = "MINV M1, M0" ∧ assemblyText (.mvmul 1 0 2) = "MVMUL V1, M0, V2" := by decide

/-! ## The commands -/

/-- T1.3.8: the greatest signed operand. -/
theorem test_modinv_inverse :
    after (exec (.modinv 1 0) (loadScalar 0 2147483647 State.reset))
      (fun t => t.scalars[1] == 17#32 && t.err == 0#4 && t.cp) = true := by decide

/-- T1.3.2: 4 shares a factor with 26. -/
theorem test_modinv_not_invertible :
    after (exec (.modinv 1 0) (loadScalar 0 4 (loadScalar 1 0x55 State.reset)))
      (fun t => t.scalars[1] == 0x55#32 && t.err == 1#4 && !t.cp) = true := by decide

/-- T2.9: the exact determinant does not fit a word. -/
theorem test_mdet_exact :
    after (exec (.mdet 0 0) (loadMatrix 0 (matrixReg 2 [2147483647, -2147483648, 1, 1]) State.reset))
      (fun t => t.scalars[0] == 21#32 && t.err == 0#4 && t.cp) = true := by decide

/-- T2.13: order 4, a negative determinant. -/
theorem test_mdet_order_four :
    after (exec (.mdet 0 0)
      (loadMatrix 0 (matrixReg 4 [1, 2, 3, 4, 0, 1, 4, 2, 3, 0, 1, 5, 2, 7, 1, 1]) State.reset))
      (fun t => t.scalars[0] == 7#32 && t.err == 0#4 && t.cp) = true := by decide

/-- T3.1. -/
theorem test_madj_order_three :
    after (exec (.madj 1 0) (loadMatrix 0 keyA State.reset))
      (fun t => matrixIs t.matrices[1] 3 [18, 21, 16, 5, 18, 5, 5, 14, 18] && t.err == 0#4 && !t.cp) = true := by
  decide

/-- T3.17: the words beyond the value written stay. -/
theorem test_madj_leftover_words :
    after (exec (.madj 1 0) (loadMatrix 1 keyA (loadMatrix 0 (matrixReg 2 [2, 4, 6, 8]) State.reset)))
      (fun t => matrixIs t.matrices[1] 2 [8, 22, 20, 2, 16, 10, 20, 17, 15, 0]) = true := by decide

/-- T4.1, T4.18: in place. -/
theorem test_minv_in_place :
    after (exec (.minv 0 0) (loadMatrix 0 keyA State.reset))
      (fun t => matrixIs t.matrices[0] 3 [8, 5, 10, 21, 8, 21, 21, 12, 8] && t.err == 0#4 && t.cp) = true := by
  decide

/-- T4.3: not invertible, the destination stays. -/
theorem test_minv_not_invertible :
    after (exec (.minv 2 0) (loadMatrix 0 (matrixReg 2 [2, 4, 6, 8]) State.reset))
      (fun t => matrixIs t.matrices[2] 0 [0, 0, 0, 0] && t.err == 1#4 && !t.cp) = true := by decide

/-- T5.2: the first source is the left factor. -/
theorem test_mmul_not_commutative :
    after (exec (.mmul 2 1 0) demo) (fun t => matrixIs t.matrices[2] 2 [7, 13, 17, 3] && t.err == 0#4) = true := by
  decide

/-- T5.8.3: a second source never loaded is a mismatch. -/
theorem test_mmul_dimension_mismatch :
    after (exec (.mmul 2 0 3) demo) (fun t => t == { demo with err := 3#4 }) = true := by decide

/-- T6.1: "ACT" to "POH", the vector a column. -/
theorem test_mvmul_scenario_a :
    after (exec (.mvmul 1 0 0) (loadMatrix 0 keyA (loadVector 0 (vectorReg 3 [0, 2, 19]) State.reset)))
      (fun t => vectorIs t.vectors[1] 3 [15, 14, 7] && t.err == 0#4) = true := by decide

/-- T6.10: in place, and the words beyond the value stay. -/
theorem test_mvmul_leftover_words :
    after (exec (.mvmul 0 0 0) (loadMatrix 0 keyA (loadVector 0 (vectorReg 3 [0, 2, 19, 99, -5]) State.reset)))
      (fun t => vectorIs t.vectors[0] 3 [15, 14, 7, 99, -5] && t.err == 0#4) = true := by decide

/-! ## Priority, the port, steps, reset -/

/-- T8.1, T8.2, T8.7, T8.8: which failure is reported. -/
theorem test_priority :
    after (executeCommand 0x00000007#32 (loadModulus 0 State.reset)) (fun t => t.err == 4#4) = true ∧
    after (executeCommand 0x00000004#32 (loadModulus 1 State.reset)) (fun t => t.err == 6#4) = true ∧
    after (exec (.mmul 2 0 1) (loadMatrix 0 (matrixReg 7 []) (loadMatrix 1 keyA State.reset)))
      (fun t => t.err == 5#4) = true ∧
    after (exec (.mmul 2 0 1) (loadMatrix 1 (matrixReg 7 []) (loadMatrix 0 keyA State.reset)))
      (fun t => t.err == 3#4) = true := by decide

/-- T7's index arithmetic. -/
theorem test_port_index :
    portReg 0x06#8 = .scalar 2 ∧ portReg 0x30#8 = .vectorLen 2 ∧ portReg 0x3D#8 = .vectorData 3 4 ∧
    portReg 0x60#8 = .matrixOrd 1 ∧ portReg 0x81#8 = .matrixData 2 0 ∧ portReg 0xA0#8 = .matrixOrd 3 ∧
    portReg 0xB9#8 = .matrixData 3 24 ∧ portReg 0x46#8 = .matrixData 0 5 := by decide

/-- T7.1. -/
theorem test_port_after_reset :
    portRead 0x00#8 State.reset = 0#32 ∧ portRead 0x01#8 State.reset = 0#32 ∧
    portRead 0x02#8 State.reset = 0x1A#32 ∧ portRead 0x04#8 State.reset = 0#32 ∧
    portRead 0x20#8 State.reset = 0#32 ∧ portRead 0x40#8 State.reset = 0#32 := by decide

/-- T7.2, T7.4, T7.5: writes that are ignored, and one that is stored although no command would accept it. -/
theorem test_port_write :
    after (portWrite 0x01#8 0xFFFFFFFF#32 demo) (fun t => t == demo) = true ∧
    after (portWrite 0x5A#8 5#32 demo) (fun t => t == demo) = true ∧
    after (portWrite 0x02#8 0xDEADBEEF#32 demo)
      (fun t => t.modulus == 0xDEADBEEF#32 && portRead 0x01#8 t == 0#32) = true := by decide

/-- R83: no host move, no change. -/
theorem test_step_idle : after (step demo) (fun t => t == demo) = true := by decide

/-- R29: a read gives the host its word. -/
theorem test_step_read :
    after (step (hostDoes [.read 0x04#8] demo)) (fun t => t.returned == [7#32] && t.pending == []) = true := by
  decide

/-- T9: reset from a state with something in it, then the first command after reset. -/
theorem test_step_reset :
    after (step (hostDoes [.reset] { demo with err := 4#4, cp := true })) (fun t => t == State.reset) = true := by
  decide

theorem test_step_first_command_after_reset :
    after (step (State.reset.withFetchWord 32 0x00000002)) (fun t => t == { State.reset with err := 5#4 }) = true ∧
    after (step (State.reset.withFetchWord 32 0x00000101)) (fun t => t == { State.reset with err := 1#4 }) = true := by
  decide

/-- The indexes of `ReadReturnsTheWordOfItsIndex` and `WriteStoresTheWordAndNothingElse`: every index falls under
exactly one clause. -/
theorem test_port_clauses_are_disjoint : ∀ idx : BitVec 8,
    [decide (idx.toNat = 0x00), decide (idx.toNat = 0x01), decide (idx.toNat = 0x02),
      decide (∃ i : Fin 4, idx.toNat = 0x04 + i), decide (∃ k : Fin 4, idx.toNat = 0x20 + 8 * k),
      decide (∃ (k : Fin 4) (i : Fin 5), idx.toNat = 0x21 + 8 * k + i),
      decide (∃ k : Fin 4, idx.toNat = 0x40 + 32 * k),
      decide (∃ (k : Fin 4) (f : Fin 25), idx.toNat = 0x41 + 32 * k + f),
      decide (ReservedIndex idx)].count true = 1 := by decide

/-! ## Witnesses: for each statement with hypotheses, a concrete case that meets them -/

theorem witness_EncodeUndoesDecode : decode 0x00012305#32 = .command (.mmul 3 2 1) := by decide

/-- One word for each clause, the ends of the opcode ranges among them, each with its three register fields; the first
two have a reserved bit set. -/
theorem witness_WordsDecodeByTheirFields :
    ([(0x00000400#32, 0, 0, 0), (0x80000001#32, 0, 0, 0), (0x00003201#32, 2, 3, 0), (0x00000002#32, 0, 0, 0),
        (0x00000103#32, 1, 0, 0), (0x00000204#32, 2, 0, 0), (0x00033305#32, 3, 3, 3), (0x00000106#32, 1, 0, 0),
        (0x00000000#32, 0, 0, 0), (0x00000007#32, 0, 0, 0), (0x000000FF#32, 0, 0, 0), (0x00010101#32, 1, 0, 1),
        (0x00030004#32, 0, 0, 3)] : List (Word × RegNum × RegNum × RegNum)).all
      (fun p => p.2.1.val == p.1.toNat / 256 % 4 && p.2.2.1.val == p.1.toNat / 4096 % 4 &&
        p.2.2.2.val == p.1.toNat / 65536 % 4) = true ∧
    [0x00000400#32, 0x80000001#32].all (fun w : Word => w &&& 0xFFFCCC00#32 != 0#32) = true ∧
    [0x00003201#32, 0x00000002#32, 0x00000103#32, 0x00000204#32, 0x00033305#32, 0x00000106#32, 0x00000000#32,
      0x00000007#32, 0x000000FF#32, 0x00010101#32, 0x00030004#32].all
      (fun w : Word => w &&& 0xFFFCCC00#32 == 0#32) = true := by decide

theorem witness_StepRunsTheDecodedCommand :
    (hostDoes [.write 0x00#8 0x00000101#32] demo).pending = .write 0x00#8 0x00000101#32 :: [] ∧
    decode 0x00000101#32 = .command (.modinv 1 0) := by decide

theorem witness_IllegalWordWritesOnlyErr :
    (decode 0x00000007#32).toOption = none ∧ (decode 0x00000101#32).toOption = some (.modinv 1 0) := by decide

theorem witness_IdleStepKeepsAllState : demo.pending = [] := rfl

/-- An index for each clause, at both ends of its range. -/
theorem witness_ReadReturnsTheWordOfItsIndex :
    (hostDoes [.read 0xB9#8] demo).pending = .read 0xB9#8 :: [] ∧
    ((0x04#8).toNat = 0x04 + (0 : Fin 4).val ∧ (0x07#8).toNat = 0x04 + (3 : Fin 4).val) ∧
    ((0x20#8).toNat = 0x20 + 8 * (0 : Fin 4).val ∧ (0x38#8).toNat = 0x20 + 8 * (3 : Fin 4).val) ∧
    ((0x21#8).toNat = 0x21 + 8 * (0 : Fin 4).val + (0 : Fin 5).val ∧
      (0x3D#8).toNat = 0x21 + 8 * (3 : Fin 4).val + (4 : Fin 5).val) ∧
    ((0x40#8).toNat = 0x40 + 32 * (0 : Fin 4).val ∧ (0xA0#8).toNat = 0x40 + 32 * (3 : Fin 4).val) ∧
    ((0x41#8).toNat = 0x41 + 32 * (0 : Fin 4).val + (0 : Fin 25).val ∧
      (0xB9#8).toNat = 0x41 + 32 * (3 : Fin 4).val + (24 : Fin 25).val) :=
  ⟨rfl, by decide, by decide, by decide, by decide, by decide⟩

/-- Reserved indexes at the ends of R31's ranges. -/
theorem witness_ReservedIndex :
    [0x03#8, 0x08#8, 0x1F#8, 0x26#8, 0x3F#8, 0x5A#8, 0x7F#8, 0x9A#8, 0xBF#8, 0xC0#8, 0xFF#8].all
      (fun idx => decide (ReservedIndex idx)) = true := by decide

theorem witness_WriteStoresTheWordAndNothingElse :
    (hostDoes [.write 0xB9#8 7#32] demo).pending = .write 0xB9#8 7#32 :: [] ∧
    (0x00#8).toNat = 0x00 ∧ (0x01#8).toNat = 0x01 ∧ ReservedIndex 0xBA#8 ∧
    (0xB9#8).toNat ≠ 0x00 ∧ (0xB9#8).toNat ≠ 0x01 ∧ ¬ReservedIndex 0xB9#8 ∧
    0xB8#8 ≠ 0xB9#8 := by decide

theorem witness_TransactionsAreIdempotent :
    (hostDoes [.read 0x04#8, .read 0x04#8] demo).pending = .read 0x04#8 :: .read 0x04#8 :: [] ∧
    (0x04#8 : BitVec 8) ≠ 0#8 ∧
    (hostDoes [.write 0x04#8 5#32, .write 0x04#8 5#32] demo).pending =
      .write 0x04#8 5#32 :: .write 0x04#8 5#32 :: [] := by decide

theorem witness_ResetLeavesTheListedValues : (hostDoes [.reset] demo).pending = .reset :: [] := rfl

/-- A step into an error, from a legal status. -/
theorem witness_StatusLegalKeptByEveryStep :
    StatusLegal (demo.withFetchWord 32 0x00000104) ∧
    ∃ t, step (demo.withFetchWord 32 0x00000104) = .next t ∧ decide (t.cp = true) = true :=
  ⟨by decide, exists_next (by decide)⟩

theorem witness_StatusWordStaysInItsRange : StatusLegal { demo with err := 6#4, cp := true } := by decide

theorem witness_StatusIsWrittenByCommandsAndResetOnly :
    (∃ t, exec (.minv 3 0) demo = .next t ∧ decide (t.err = 0#4) = true) ∧
    decode 0x00000007#32 = .illegal .reservedOpcode ∧
    (∃ t, step (hostDoes [.reset] { demo with err := 4#4 }) = .next t ∧ decide (t.err ≠ 4#4) = true) ∧
    ∃ t, step (demo.withFetchWord 32 0x00000007) = .next t ∧ decide (t.err ≠ demo.err) = true :=
  ⟨exists_next (by decide), by decide, exists_next (by decide), exists_next (by decide)⟩

theorem witness_FirstFailureInOrderIsReported :
    decode 0x00000007#32 = .illegal .reservedOpcode ∧ (∃ t, executeCommand 0x00000007#32 demo = .next t) ∧
    (loadModulus 1 demo).modulus.toInt < 2 ∧ (∃ t, exec (.mmul 3 0 1) (loadModulus 1 demo) = .next t) ∧
    2 ≤ (loadModulus 2 demo).modulus.toInt ∧ ∃ t, exec (.mmul 3 0 1) (loadModulus 2 demo) = .next t := by
  refine ⟨by decide, ?_, by decide, ?_, by decide, ?_⟩
  · obtain ⟨t, h, _⟩ := executeCommand_shape 0x00000007#32 demo; exact ⟨t, h⟩
  · obtain ⟨t, h, _⟩ := exec_shape (.mmul 3 0 1) (loadModulus 1 demo); exact ⟨t, h⟩
  · obtain ⟨t, h, _⟩ := exec_shape (.mmul 3 0 1) (loadModulus 2 demo); exact ⟨t, h⟩

theorem witness_FailedCommandChangesOnlyStatus :
    ∃ t, executeCommand 0x00001304#32 demo = .next t ∧ decide (t.err ≠ 0#4) = true :=
  exists_next (by decide)

/-- Two states that differ where `MINV M3, M0` does not look: another register and a data word beyond the order. -/
theorem witness_ResultDependsOnTheNamedOperandsOnly :
    SameInputs (.minv 3 0) demo (loadMatrix 0 (matrixReg 2 [3, 3, 2, 5, 9]) (loadScalar 1 5 demo)) ∧
    demo ≠ loadMatrix 0 (matrixReg 2 [3, 3, 2, 5, 9]) (loadScalar 1 5 demo) ∧
    (∃ t, exec (.minv 3 0) demo = .next t ∧ decide (t.err = 0#4) = true) ∧
    ∃ t, exec (.minv 3 0) (loadMatrix 0 (matrixReg 2 [3, 3, 2, 5, 9]) (loadScalar 1 5 demo)) = .next t ∧
      decide (t.err = 0#4) = true := by
  refine ⟨?_, by decide, exists_next (by decide), exists_next (by decide)⟩
  unfold SameInputs
  decide

/-- Each command, in place and into another register, ends `OK`. -/
theorem witness_DestinationMayBeASource :
    (∀ d : RegNum, ∃ t, exec (.modinv d 0) demo = .next t ∧ decide (t.err = 0#4) = true) ∧
    (∀ d : RegNum, ∃ t, exec (.madj d 0) demo = .next t ∧ decide (t.err = 0#4) = true) ∧
    (∀ d : RegNum, ∃ t, exec (.minv d 0) demo = .next t ∧ decide (t.err = 0#4) = true) ∧
    (∀ d : RegNum, ∃ t, exec (.mmul d 0 1) demo = .next t ∧ decide (t.err = 0#4) = true) ∧
    ∀ d : RegNum, ∃ t, exec (.mvmul d 0 0) demo = .next t ∧ decide (t.err = 0#4) = true :=
  ⟨fun d => exists_next (by revert d; decide), fun d => exists_next (by revert d; decide),
    fun d => exists_next (by revert d; decide), fun d => exists_next (by revert d; decide),
    fun d => exists_next (by revert d; decide)⟩

/-- Each command answers a next state, ends `OK` and changes its destination (`MDET` writes `S1`, `MVMUL` `V1`, the
others `S1` or `M3`): the cases of `ScalarCommandFrame`, `MatrixCommandFrame`, `VectorCommandFrame` and
`ResultsLieBelowTheModulus`. -/
theorem witness_Frames :
    (∃ t, exec (.modinv 1 0) demo = .next t ∧ decide (t.err = 0#4 ∧ t.scalars ≠ demo.scalars) = true) ∧
    (∃ t, exec (.mdet 1 0) demo = .next t ∧ decide (t.err = 0#4 ∧ t.scalars ≠ demo.scalars) = true) ∧
    (∃ t, exec (.madj 3 0) demo = .next t ∧ decide (t.err = 0#4 ∧ t.matrices ≠ demo.matrices) = true) ∧
    (∃ t, exec (.minv 3 0) demo = .next t ∧ decide (t.err = 0#4 ∧ t.matrices ≠ demo.matrices) = true) ∧
    (∃ t, exec (.mmul 3 0 1) demo = .next t ∧ decide (t.err = 0#4 ∧ t.matrices ≠ demo.matrices) = true) ∧
    ∃ t, exec (.mvmul 1 0 0) demo = .next t ∧ decide (t.err = 0#4 ∧ t.vectors ≠ demo.vectors) = true :=
  ⟨exists_next (by decide), exists_next (by decide), exists_next (by decide),
    exists_next (by decide), exists_next (by decide), exists_next (by decide)⟩

theorem witness_ModulusChangesByHostWriteOrResetOnly :
    (∃ t, step (hostDoes [.reset] (loadModulus 5 demo)) = .next t ∧
      decide (t.modulus ≠ (loadModulus 5 demo).modulus) = true) ∧
    ∃ t, step (hostDoes [.write 0x02#8 5#32] demo) = .next t ∧ decide (t.modulus ≠ demo.modulus) = true :=
  ⟨exists_next (by decide), exists_next (by decide)⟩

/-- The least modulus, and the residue of a negative number. -/
theorem witness_ReduceIsTheUniqueResidue :
    (2 : Int) ≤ 2 ∧ (2 : Int) ≤ 26 ∧ (0 : Int) ≤ 13 ∧ (13 : Int) < 26 ∧ (26 : Int) ∣ 13 - (-13) := by decide

theorem witness_ReduceLaws : (2 : Int) ≤ 2 ∧ (2 : Int) ≤ 2147483647 := by decide

theorem witness_GcdIsTheGreatestCommonDivisor :
    ((0 : Int) ≤ 0 ∧ (0 : Int) ≤ 26 ∧ ¬((0 : Int) = 0 ∧ (26 : Int) = 0)) ∧ (0 : Int) < 26 ∧
    ((2 : Int) ∣ 4 ∧ (2 : Int) ∣ 26) := by decide

/-- Both branches: 4 and 7 modulo 26 (T1.1), and a second inverse candidate that meets the uniqueness clause. -/
theorem witness_ModInverseIsTheUniqueInverse :
    (2 : Int) ≤ 26 ∧ gcdOf (reduce 4 26) 26 ≠ 1 ∧ gcdOf (reduce 7 26) 26 = 1 ∧ reduce (reduce 7 26 * 15) 26 = 1 := by
  decide

theorem witness_EuclideanAlgorithmComputesModInverse : (2 : Int) ≤ 26 := by decide

theorem witness_ModInverseLaws : (2 : Int) ≤ 26 ∧ modInverse 7 26 = some 15 := by decide

theorem witness_DetIsFirstRowExpansion : (2 : Nat) ≤ 2 ∧ (2 : Nat) ≤ 5 := by decide

theorem witness_AdjIsTheAdjugate : (2 : Nat) ≤ 3 ∧ (0 : Fin 3) ≠ 2 := by decide

theorem witness_AdjugateTimesMatrixIsDeterminant : (2 : Nat) ≤ 2 ∧ 1 < 2 ∧ 0 < 2 := by decide

/-- Both branches: rows (1, 2), (3, 4) and rows (3, 3), (2, 5) modulo 26, and a candidate that meets the uniqueness
clause (T4.2). -/
theorem witness_InverseModIsTheUniqueInverse :
    (2 : Nat) ≤ 2 ∧ (2 : Int) ≤ 26 ∧ gcdOf (reduce (det 2 (matOf demo 1)) 26) 26 ≠ 1 ∧
    gcdOf (reduce (det 2 (matOf demo 0)) 26) 26 = 1 ∧
    ∀ i < 2, ∀ j < 2, productMod 2 (matOf demo 0) (matrixValue 2 (matrixReg 2 [15, 17, 20, 9])) 26 i j =
      if i = j then 1 else 0 := by decide

/-- Orders 2 and 5, the last word of an order-5 value. -/
theorem witness_MatrixEntriesArePackedRowMajor :
    (2 ≤ demo.matrices[0].ord.toNat ∧ demo.matrices[0].ord.toNat ≤ 5 ∧
      (3 : Fin 25).val < demo.matrices[0].ord.toNat * demo.matrices[0].ord.toNat) ∧
    (2 ≤ (matrixReg 5 []).ord.toNat ∧ (matrixReg 5 []).ord.toNat ≤ 5 ∧
      (24 : Fin 25).val < (matrixReg 5 []).ord.toNat * (matrixReg 5 []).ord.toNat) := by decide

/-- Each outcome's hypotheses: modulus 1; `S2` = 0; `S0` = 7. -/
theorem witness_ModinvFollowsItsRule :
    (loadModulus 1 demo).modulus.toInt < 2 ∧ 2 ≤ demo.modulus.toInt ∧
    gcdOf (reduce demo.scalars[2].toInt demo.modulus.toInt) demo.modulus.toInt ≠ 1 ∧
    gcdOf (reduce demo.scalars[0].toInt demo.modulus.toInt) demo.modulus.toInt = 1 := by decide

/-- Modulus at both sides of legal; orders 0, 1, 2, 5 and 6: the hypotheses of `MdetFollowsItsRule` and
`MadjFollowsItsRule`. -/
theorem witness_MdetAndMadjFollowTheirRules :
    (loadModulus 1 demo).modulus.toInt < 2 ∧ 2 ≤ (loadModulus 2 demo).modulus.toInt ∧
    demo.matrices[3].ord.toNat < 2 ∧ (matrixReg 1 []).ord.toNat < 2 ∧ 5 < (matrixReg 6 []).ord.toNat ∧
    (2 ≤ demo.matrices[0].ord.toNat ∧ demo.matrices[0].ord.toNat ≤ 5) ∧
    (2 ≤ (matrixReg 5 []).ord.toNat ∧ (matrixReg 5 []).ord.toNat ≤ 5) := by decide

theorem witness_MinvFollowsItsRule :
    (loadModulus 1 demo).modulus.toInt < 2 ∧ 2 ≤ demo.modulus.toInt ∧ demo.matrices[3].ord.toNat < 2 ∧
    (2 ≤ demo.matrices[1].ord.toNat ∧ demo.matrices[1].ord.toNat ≤ 5 ∧
      gcdOf (reduce (det (ordOf demo 1) (matOf demo 1)) demo.modulus.toInt) demo.modulus.toInt ≠ 1) ∧
    (2 ≤ demo.matrices[0].ord.toNat ∧ demo.matrices[0].ord.toNat ≤ 5 ∧
      gcdOf (reduce (det (ordOf demo 0) (matOf demo 0)) demo.modulus.toInt) demo.modulus.toInt = 1) := by
  decide

theorem witness_MmulFollowsItsRule :
    (loadModulus 1 demo).modulus.toInt < 2 ∧ 2 ≤ demo.modulus.toInt ∧ demo.matrices[3].ord.toNat < 2 ∧
    2 ≤ demo.matrices[0].ord.toNat ∧ demo.matrices[0].ord.toNat ≤ 5 ∧
    demo.matrices[2].ord ≠ demo.matrices[0].ord ∧ demo.matrices[1].ord = demo.matrices[0].ord := by decide

theorem witness_MvmulFollowsItsRule :
    (loadModulus 1 demo).modulus.toInt < 2 ∧ 2 ≤ demo.modulus.toInt ∧ demo.matrices[3].ord.toNat < 2 ∧
    2 ≤ demo.matrices[0].ord.toNat ∧ demo.matrices[0].ord.toNat ≤ 5 ∧
    demo.vectors[1].len ≠ demo.matrices[0].ord ∧ demo.vectors[0].len = demo.matrices[0].ord := by decide

theorem witness_MdetWritesTheDeterminantResidue :
    ∃ t, exec (.mdet 1 2) demo = .next t ∧ decide (t.err = 0#4) = true := exists_next (by decide)

theorem witness_MadjTimesSourceIsDeterminant :
    (∃ t, exec (.madj 3 2) demo = .next t ∧ decide (t.err = 0#4) = true) ∧ 2 < ordOf demo 2 :=
  ⟨exists_next (by decide), by decide⟩

/-- Legal modulus and order, with an invertible source and with one that is not. -/
theorem witness_MinvSucceedsExactlyOnInvertibleMatrices :
    2 ≤ modulusOf demo ∧ (2 ≤ ordOf demo 0 ∧ ordOf demo 0 ≤ 5) ∧ (2 ≤ ordOf demo 1 ∧ ordOf demo 1 ≤ 5) ∧
    (∃ t, exec (.minv 3 0) demo = .next t ∧ decide (t.err = 0#4) = true) ∧
    ∃ t, exec (.minv 3 1) demo = .next t ∧ decide (t.err = 1#4) = true :=
  ⟨by decide, by decide, by decide, exists_next (by decide), exists_next (by decide)⟩

theorem witness_MinvThenMmulGivesTheIdentity :
    (3 : RegNum) ≠ 0 ∧ ∃ t, exec (.minv 3 0) demo = .next t ∧ decide (t.err = 0#4) = true :=
  ⟨by decide, exists_next (by decide)⟩

theorem witness_EncryptThenDecryptRestoresTheBlock :
    (3 : RegNum) ≠ 0 ∧ lenOf demo 0 = ordOf demo 0 ∧
    (∀ j < ordOf demo 0, 0 ≤ vecOf demo 0 j ∧ vecOf demo 0 j < modulusOf demo) ∧
    ∃ t u v, exec (.minv 3 0) demo = .next t ∧ decide (t.err = 0#4) = true ∧
      exec (.mvmul 1 0 0) t = .next u ∧ exec (.mvmul 2 3 1) u = .next v := by
  obtain ⟨t, h, he⟩ := exists_next (o := exec (.minv 3 0) demo) (p := fun t => decide (t.err = 0#4))
    (by decide)
  obtain ⟨u, hu, _⟩ := exec_shape (.mvmul 1 0 0) t
  obtain ⟨v, hv, _⟩ := exec_shape (.mvmul 2 3 1) u
  exact ⟨by decide, by decide, by decide, t, u, v, h, he, hu, hv⟩

theorem witness_ModinvTwiceRestoresTheScalar :
    0 ≤ scalarOf demo 0 ∧ scalarOf demo 0 < modulusOf demo ∧
    ∃ t, exec (.modinv 0 0) demo = .next t ∧ decide (t.err = 0#4) = true :=
  ⟨by decide, by decide, exists_next (by decide)⟩

theorem witness_MinvTwiceRestoresTheMatrix :
    (∀ i < ordOf demo 0, ∀ j < ordOf demo 0, 0 ≤ matOf demo 0 i j ∧ matOf demo 0 i j < modulusOf demo) ∧
    ∃ t, exec (.minv 0 0) demo = .next t ∧ decide (t.err = 0#4) = true :=
  ⟨by decide, exists_next (by decide)⟩

theorem witness_MadjTwiceRestoresAnOrderTwoMatrix :
    ordOf demo 0 = 2 ∧ (∀ i < 2, ∀ j < 2, 0 ≤ matOf demo 0 i j ∧ matOf demo 0 i j < modulusOf demo) ∧
    ∃ t, exec (.madj 0 0) demo = .next t ∧ decide (t.err = 0#4) = true :=
  ⟨by decide, by decide, exists_next (by decide)⟩

theorem witness_MdetOfMmulIsTheProduct :
    ∃ t u, exec (.mmul 3 0 1) demo = .next t ∧ decide (t.err = 0#4) = true ∧ exec (.mdet 1 3) t = .next u := by
  obtain ⟨t, h, he⟩ := exists_next (o := exec (.mmul 3 0 1) demo) (p := fun t => decide (t.err = 0#4))
    (by decide)
  obtain ⟨u, hu, _⟩ := exec_shape (.mdet 1 3) t
  exact ⟨t, u, h, he, hu⟩

end Sys2Proof.Tests
end

section
/-! PROOFS. Shared rules of the family 10_state: what a step can do, what it leaves of `STATUS` and `MOD`, and how the
port words determine the state. -/

namespace Sys2Proof.Machine

/-! ## Outcome codes -/

theorem OutcomeCode.code_toNat_le (c : OutcomeCode) : c.code.toNat ≤ 6 := by
  cases c <;> decide

theorem OutcomeCode.eq_notInvertible_of_code {c : OutcomeCode} (h : c.code = 1#4) : c = .notInvertible := by
  revert h; cases c <;> decide

/-- Completing leaves a legal status when `CP` is already clear wherever the outcome is `NOT_INVERTIBLE`. -/
theorem complete_statusLegal {c : OutcomeCode} {u t : State} (hcp : c = .notInvertible → u.cp = false)
    (h : complete c u = .next t) : StatusLegal t := by
  cases h
  exact ⟨c.code_toNat_le, fun he => hcp (OutcomeCode.eq_notInvertible_of_code he)⟩

/-- Every command ends by completing (R72), and with `NOT_INVERTIBLE` only after clearing `CP` (R76). -/
theorem exec_completes (i : Instr) (s : State) :
    ∃ c u, exec i s = complete c u ∧ (c = .notInvertible → u.cp = false) := by
  cases i with
  | modinv d a =>
    rcases execModinv_cases d a s with ⟨_, h⟩ | ⟨_, _, h⟩ | ⟨_, _, b, _, _, _, _, h⟩ <;> exact ⟨_, _, h, by simp⟩
  | mdet d a =>
    rcases execMdet_cases d a s with ⟨_, h⟩ | ⟨_, _, h⟩ | ⟨_, _, h⟩ <;> exact ⟨_, _, h, by simp⟩
  | madj d a =>
    rcases execMadj_cases d a s with ⟨_, h⟩ | ⟨_, _, h⟩ | ⟨_, _, h⟩ <;> exact ⟨_, _, h, by simp⟩
  | minv d a =>
    rcases execMinv_cases d a s with ⟨_, h⟩ | ⟨_, _, h⟩ | ⟨_, _, _, h⟩ | ⟨_, _, _, b, _, _, _, _, h⟩ <;>
      exact ⟨_, _, h, by simp⟩
  | mmul d a b =>
    rcases execMmul_cases d a b s with ⟨_, h⟩ | ⟨_, _, h⟩ | ⟨_, _, _, h⟩ | ⟨_, _, _, h⟩ <;> exact ⟨_, _, h, by simp⟩
  | mvmul d a b =>
    rcases execMvmul_cases d a b s with ⟨_, h⟩ | ⟨_, _, h⟩ | ⟨_, _, _, h⟩ | ⟨_, _, _, h⟩ <;> exact ⟨_, _, h, by simp⟩

/-- A write to `CMD` leaves a legal status whatever the status was: `ERR` is never sticky (R76). -/
theorem executeCommand_statusLegal {w : Word} {s t : State} (h : executeCommand w s = .next t) : StatusLegal t := by
  unfold executeCommand at h
  cases hd : decode w with
  | command i =>
    obtain ⟨c, u, hi, hcp⟩ := exec_completes i s
    rw [hd] at h
    exact complete_statusLegal hcp (hi.symm.trans h)
  | illegal why =>
    rw [hd] at h
    exact complete_statusLegal (by simp) h

theorem executeCommand_modulus {w : Word} {s t : State} (h : executeCommand w s = .next t) :
    t.modulus = s.modulus := by
  obtain ⟨t', h', hmod, _⟩ := executeCommand_shape w s
  cases h'.symm.trans h
  exact hmod

/-! ## What a step can do -/

/-- A write to a register other than `CMD` leaves `STATUS`, and of the other registers `MOD` (R30). -/
theorem PortReg.write_status_modulus {r : PortReg} {w : Word} {s t : State} (hr : r ≠ .cmd)
    (h : r.write w s = .next t) :
    t.err = s.err ∧ t.cp = s.cp ∧ t.modulus = if r = .modulus then w else s.modulus := by
  cases r with
  | cmd => exact absurd rfl hr
  | _ => cases h; exact ⟨rfl, rfl, rfl⟩

theorem portReg_eq_modulus_iff : ∀ idx : BitVec 8, portReg idx = .modulus ↔ idx = 0x02#8 := by decide

/-- Everything a step can do (R35, R83, R89): nothing, reset, a read, a command, or a write to another register. -/
theorem step_cases {s t : State} (h : step s = .next t) :
    (s.pending = [] ∧ t = s) ∨
    ∃ rest,
      (s.pending = .reset :: rest ∧ t = resetEngine { s with pending := rest }) ∨
      (∃ idx, s.pending = .read idx :: rest ∧
        t = { s with pending := rest, returned := s.returned ++ [portRead idx { s with pending := rest }] }) ∨
      (∃ w, s.pending = .write 0x00#8 w :: rest ∧ executeCommand w { s with pending := rest } = .next t) ∨
      ∃ idx w, s.pending = .write idx w :: rest ∧ portReg idx ≠ .cmd ∧
        (portReg idx).write w { s with pending := rest } = .next t := by
  cases hp : s.pending with
  | nil =>
    rw [step_nil hp] at h
    cases h
    exact .inl ⟨rfl, rfl⟩
  | cons move rest =>
    rw [step_cons hp] at h
    refine .inr ⟨rest, ?_⟩
    cases move with
    | reset => cases h; exact .inl ⟨rfl, rfl⟩
    | read idx => cases h; exact .inr (.inl ⟨idx, rfl, rfl⟩)
    | write idx w =>
      by_cases hc : portReg idx = .cmd
      · obtain rfl := (portReg_eq_cmd_iff idx).1 hc
        exact .inr (.inr (.inl ⟨w, rfl, h⟩))
      · exact .inr (.inr (.inr ⟨idx, w, rfl, hc, h⟩))

/-! ## Reading the whole state through the port -/

theorem statusWord_inj {s t : State} (h : statusWord s = statusWord t) : s.err = t.err ∧ s.cp = t.cp := by
  have hn := congrArg BitVec.toNat h
  rw [statusWord_toNat, statusWord_toNat] at hn
  have hs := s.err.isLt
  have ht := t.err.isLt
  have hcp : s.cp = t.cp := by
    cases es : s.cp <;> cases et : t.cp <;> simp [es, et] at hn ⊢ <;> omega
  rw [hcp] at hn
  exact ⟨BitVec.eq_of_toNat_eq (Nat.add_left_cancel hn), hcp⟩

theorem VectorReg.eq_of_words {r r' : VectorReg} (hlen : r.len = r'.len) (hd : ∀ i : Fin 5, r.d[i] = r'.d[i]) :
    r = r' := by
  cases r; cases r'
  exact (VectorReg.mk.injEq ..).mpr ⟨hlen, Vector.ext fun i hi => hd ⟨i, hi⟩⟩

theorem MatrixReg.eq_of_words {r r' : MatrixReg} (hord : r.ord = r'.ord) (hd : ∀ f : Fin 25, r.d[f] = r'.d[f]) :
    r = r' := by
  cases r; cases r'
  exact (MatrixReg.mk.injEq ..).mpr ⟨hord, Vector.ext fun i hi => hd ⟨i, hi⟩⟩

/-- Equal readings of every port register leave no part of the engine apart. -/
theorem sameEngine_of_read {s t : State} (h : ∀ r : PortReg, r.read s = r.read t) : SameEngine s t := by
  obtain ⟨herr, hcp⟩ := statusWord_inj (h .status)
  refine ⟨h .modulus, ?_, ?_, ?_, herr, hcp⟩
  · exact Vector.ext fun i hi => h (.scalar ⟨i, hi⟩)
  · exact Vector.ext fun k hk =>
      VectorReg.eq_of_words (h (.vectorLen ⟨k, hk⟩)) fun i => h (.vectorData ⟨k, hk⟩ i)
  · exact Vector.ext fun k hk =>
      MatrixReg.eq_of_words (h (.matrixOrd ⟨k, hk⟩)) fun f => h (.matrixData ⟨k, hk⟩ f)

/-- Every register has an index, so reading all indexes reads all registers. -/
theorem portRead_eq_iff_read_eq {s t : State} :
    (∀ idx : BitVec 8, portRead idx s = portRead idx t) ↔ ∀ r : PortReg, r.read s = r.read t := by
  refine ⟨fun h r => ?_, fun h idx => h (portReg idx)⟩
  have := h r.index
  rwa [portRead, portRead, portReg_index] at this

/-! ## The obligations on steps, the port and the status -/

/-- Settles O19, case by case on what the step did: a command or a reset leaves a legal status from any state, every
other move leaves the status as it was. -/
theorem statusLegalKeptByEveryStep : Obligations.StatusLegalKeptByEveryStep := by
  intro s t hs h
  obtain ⟨_, rfl⟩ | ⟨rest, ⟨_, rfl⟩ | ⟨idx, _, rfl⟩ | ⟨w, _, hw⟩ | ⟨idx, w, _, hr, hw⟩⟩ := step_cases h
  · exact hs
  · exact ⟨by simp, fun _ => rfl⟩
  · exact hs
  · exact executeCommand_statusLegal hw
  · obtain ⟨herr, hcp, _⟩ := PortReg.write_status_modulus hr hw
    rw [StatusLegal, herr, hcp]
    exact hs

/-- Settles O13: the indexes name every register, and the registers hold the whole state. -/
theorem portShowsTheWholeState : Obligations.PortShowsTheWholeState := by
  intro s t
  rw [portRead_eq_iff_read_eq]
  exact ⟨sameEngine_of_read, fun h r => PortReg.read_congr h r⟩

/-- Settles O31, case by case on what the step did: no command writes `MOD`, and of the other registers only index 2
does. -/
theorem modulusChangesByHostWriteOrResetOnly : Obligations.ModulusChangesByHostWriteOrResetOnly := by
  intro s t h hne
  obtain ⟨_, rfl⟩ | ⟨rest, ⟨hp, _⟩ | ⟨idx, _, rfl⟩ | ⟨w, _, hw⟩ | ⟨idx, w, hp, hr, hw⟩⟩ := step_cases h
  · exact absurd rfl hne
  · exact ⟨rest, .inl hp⟩
  · exact absurd rfl hne
  · exact absurd (executeCommand_modulus hw) hne
  · obtain ⟨_, _, hmod⟩ := PortReg.write_status_modulus hr hw
    by_cases hm : portReg idx = .modulus
    · rw [if_pos hm] at hmod
      obtain rfl := (portReg_eq_modulus_iff idx).1 hm
      exact ⟨rest, .inr (hmod ▸ hp)⟩
    · rw [if_neg hm] at hmod
      exact absurd hmod hne

/-- Settles O8: the step serves the write, index 0 is `CMD`, and the decoded command is executed. -/
theorem stepRunsTheDecodedCommand : Obligations.StepRunsTheDecodedCommand := by
  intro s w i rest hp hd
  have hserve : step s = executeCommand w { s with pending := rest } := step_cons hp
  rw [hserve, executeCommand, hd]

/-- Settles O15: the step is `resetEngine`, whose registers are replicas of the register at reset. -/
theorem resetLeavesTheListedValues : Obligations.ResetLeavesTheListedValues := by
  intro s rest hp
  refine ⟨resetEngine { s with pending := rest }, step_cons hp, ⟨rfl, rfl, rfl, rfl, rfl, rfl⟩, rfl, ?_, ?_, ?_,
    rfl, rfl, rfl, rfl⟩
  · simp
  · simp [VectorReg.reset]
  · simp [MatrixReg.reset]

/-- Settles O18: reset leaves code 0 and `CP` clear. -/
theorem statusLegalAtReset : Obligations.StatusLegalAtReset :=
  ⟨Nat.zero_le 6, fun _ => rfl⟩

/-- Settles O20: index 1 reads `256·CP + ERR`. -/
theorem statusWordStaysInItsRange : Obligations.StatusWordStaysInItsRange := by
  rintro s ⟨hle, hcp⟩
  have hread : (portRead 0x01#8 s).toNat = (if s.cp then 256 else 0) + s.err.toNat := statusWord_toNat s
  rw [hread]
  cases h : s.cp with
  | false => simp only [Bool.false_eq_true, if_false]; omega
  | true =>
    have hne : s.err.toNat ≠ 1 := fun h1 => by
      simp [hcp (BitVec.eq_of_toNat_eq h1)] at h
    simp only [if_true]; omega

end Sys2Proof.Machine
end

section
/-! PROOFS. The results of the commands, family 10_state: they lie in `[0, n)`, and they depend on the named operands
alone. -/

namespace Sys2Proof.Machine

/-! ## Reading back what a command wrote -/

theorem scalarOf_writeScalar_reduce {s : State} (hn : 2 ≤ modulusOf s) (d : RegNum) (x : Int) :
    scalarOf (writeScalar d (reduce x (modulusOf s)) s) d = reduce x (modulusOf s) := by
  rw [scalarOf]
  simp [s32_toWord_reduce hn]

theorem writeMatrix_matrices_self (d : RegNum) (m : Nat) (Y : IntMatrix) (s : State) :
    (writeMatrix d m Y s).matrices[d] = s.matrices[d].withValue m Y := by simp

theorem writeVector_vectors_self (d : RegNum) (m : Nat) (y : IntVector) (s : State) :
    (writeVector d m y s).vectors[d] = s.vectors[d].withValue m y := by simp

theorem reduce_mem_range {s : State} (hn : 2 ≤ modulusOf s) (x : Int) :
    0 ≤ reduce x (modulusOf s) ∧ reduce x (modulusOf s) < modulusOf s :=
  ⟨reduce_nonneg (by omega) x, reduce_lt (by omega) x⟩

/-- A destination matrix written with reduced entries reads back with the order written and entries in `[0, n)`. -/
theorem matOf_range_of_writeMatrix {s t : State} {d : RegNum} {m : Nat} {Z : IntMatrix}
    (hn : 2 ≤ modulusOf s) (hm : m ≤ 5)
    (ht : t.matrices = (writeMatrix d m (fun i j => reduce (Z i j) (modulusOf s)) s).matrices) :
    ordOf t d = m ∧ ∀ i < ordOf t d, ∀ j < ordOf t d, 0 ≤ matOf t d i j ∧ matOf t d i j < modulusOf s := by
  obtain ⟨hord, hentry⟩ := matOf_of_writeMatrix ht hm fun i _ j _ => s32_toWord_reduce hn (Z i j)
  refine ⟨hord, fun i hi j hj => ?_⟩
  rw [hord] at hi hj
  rw [hentry i hi j hj]
  exact reduce_mem_range hn _

/-- The same for a destination vector. -/
theorem vecOf_range_of_writeVector {s t : State} {d : RegNum} {m : Nat} {z : IntVector}
    (hn : 2 ≤ modulusOf s) (hm : m ≤ 5)
    (ht : t.vectors = (writeVector d m (fun i => reduce (z i) (modulusOf s)) s).vectors) :
    lenOf t d = m ∧ ∀ i < lenOf t d, 0 ≤ vecOf t d i ∧ vecOf t d i < modulusOf s := by
  obtain ⟨hlen, hentry⟩ := vecOf_of_writeVector ht hm fun i _ => s32_toWord_reduce hn (z i)
  refine ⟨hlen, fun i hi => ?_⟩
  rw [hentry i (hlen ▸ hi)]
  exact reduce_mem_range hn _

theorem execModinv_range {d a : RegNum} {s t : State} (h : execModinv d a s = .next t) (ht : t.err = 0#4) :
    1 ≤ scalarOf t d ∧ scalarOf t d < modulusOf s := by
  obtain ⟨hn, b, hb0, hbn, hinv, hread, _⟩ := execModinv_ok h ht
  rw [hread]
  have hne : b ≠ 0 := by
    rintro rfl
    rw [mul_zero] at hinv
    have h01 : (0 : Int) = 1 := eq_of_range_of_modEq le_rfl (by omega) (by omega) (by omega) hinv
    omega
  omega

theorem execMdet_range {d a : RegNum} {s t : State} (h : execMdet d a s = .next t) (ht : t.err = 0#4) :
    0 ≤ scalarOf t d ∧ scalarOf t d < modulusOf s := by
  obtain ⟨hn, _, _, hst⟩ := execMdet_ok h ht
  have hread : scalarOf t d = reduce (det (ordOf s a) (matOf s a)) (modulusOf s) := by
    rw [hst]; exact scalarOf_writeScalar_reduce hn d _
  rw [hread]
  exact reduce_mem_range hn _

theorem execMvmul_range {d a b : RegNum} {s t : State} (h : execMvmul d a b s = .next t) (ht : t.err = 0#4) :
    lenOf t d = ordOf s a ∧ ∀ i < lenOf t d, 0 ≤ vecOf t d i ∧ vecOf t d i < modulusOf s := by
  obtain ⟨hn, ⟨_, hm⟩, _, rfl⟩ := execMvmul_ok h ht
  exact vecOf_range_of_writeVector hn hm rfl

/-- Settles O32, from what each command that ended `OK` wrote. -/
theorem resultsLieBelowTheModulus : Obligations.ResultsLieBelowTheModulus := by
  intro d a b s t ht
  refine ⟨fun h => execModinv_range h ht, fun h => execMdet_range h ht, ?_, fun h => execMvmul_range h ht⟩
  rintro (h | h | h)
  · obtain ⟨hn, ⟨_, hm⟩, rfl⟩ := execMadj_ok h ht
    exact matOf_range_of_writeMatrix hn hm rfl
  · obtain ⟨hn, ⟨_, hm⟩, x, _, _, _, rfl⟩ := execMinv_ok h ht
    exact matOf_range_of_writeMatrix hn hm rfl
  · obtain ⟨hn, ⟨_, hm⟩, _, rfl⟩ := execMmul_ok h ht
    exact matOf_range_of_writeMatrix hn hm rfl

/-- Settles O44: `f = (f div m)·m + f mod m`, and data word `f` exists. -/
theorem matrixEntriesArePackedRowMajor : Obligations.MatrixEntriesArePackedRowMajor := by
  intro s k _ _ f _
  rw [matOf, ordOf, u32, matrixValue, Nat.div_add_mod', matrixWord_of_lt _ f.isLt]
  rfl

/-! ## Equal operands: the values read from them and computed from them are equal -/

theorem ordOf_congr {s s' : State} {a : RegNum} (h : SameMatrix s.matrices[a] s'.matrices[a]) :
    ordOf s' a = ordOf s a := congrArg u32 h.1.symm

theorem matOf_congr {s s' : State} {a : RegNum} (h : SameMatrix s.matrices[a] s'.matrices[a]) (hm : ordOf s a ≤ 5) :
    ∀ i < ordOf s a, ∀ j < ordOf s a, matOf s a i j = matOf s' a i j := by
  intro i hi j hj
  have h25 := matrix_index_lt_words hm hi hj
  have hword := h.2 ⟨_, h25⟩ (matrix_index_lt hi hj)
  rw [matOf, matOf, ordOf_congr h, matrixValue, matrixValue, matrixWord_of_lt _ h25, matrixWord_of_lt _ h25]
  exact congrArg s32 hword

theorem vecOf_congr {s s' : State} {b : RegNum} (h : SameVector s.vectors[b] s'.vectors[b]) (hm : lenOf s b ≤ 5) :
    ∀ i < lenOf s b, vecOf s b i = vecOf s' b i := by
  intro i hi
  have h5 : i < 5 := by omega
  have hword := h.2 ⟨i, h5⟩ hi
  rw [vecOf, vecOf, vectorValue, vectorValue, vectorWord_of_lt _ h5, vectorWord_of_lt _ h5]
  exact congrArg s32 hword

theorem inverseMod_congr {m : Nat} {X X' : IntMatrix} (h : ∀ i < m, ∀ j < m, X i j = X' i j) (n : Int) :
    inverseMod m X n = inverseMod m X' n := by
  have hadj : adj m X = adj m X' := funext fun i => funext fun j => adj_congr h i j
  rw [inverseMod, inverseMod, det_congr m h, hadj]

theorem productMod_congr {m : Nat} {A A' B B' : IntMatrix} (hA : ∀ i < m, ∀ j < m, A i j = A' i j)
    (hB : ∀ i < m, ∀ j < m, B i j = B' i j) (n : Int) :
    ∀ i < m, ∀ j < m, productMod m A B n i j = productMod m A' B' n i j := by
  intro i hi j hj
  rw [productMod, productMod, sumTo_congr fun k hk => by rw [hA i hi k hk, hB k hk j hj]]

theorem vectorProductMod_congr {m : Nat} {A A' : IntMatrix} {x x' : IntVector}
    (hA : ∀ i < m, ∀ j < m, A i j = A' i j) (hx : ∀ i < m, x i = x' i) (n : Int) :
    ∀ i < m, vectorProductMod m A x n i = vectorProductMod m A' x' n i := by
  intro i hi
  rw [vectorProductMod, vectorProductMod, sumTo_congr fun k hk => by rw [hA i hi k hk, hx k hk]]

/-! ## Equal values written: the destination registers hold the same result -/

theorem sameMatrix_writeMatrix {s s' : State} {d : RegNum} {m : Nat} {Y Y' : IntMatrix} (hm : m ≤ 5)
    (h : ∀ i < m, ∀ j < m, Y i j = Y' i j) :
    SameMatrix (writeMatrix d m Y s).matrices[d] (writeMatrix d m Y' s').matrices[d] := by
  rw [writeMatrix_matrices_self, writeMatrix_matrices_self]
  refine ⟨rfl, fun f hf => ?_⟩
  rw [MatrixReg.withValue_ord, u32_toWord_natCast (by omega)] at hf
  have hpos : 0 < m := Nat.pos_of_mul_pos_left (Nat.zero_lt_of_lt hf)
  rw [MatrixReg.withValue_d, MatrixReg.withValue_d, if_pos hf, if_pos hf,
    h _ (Nat.div_lt_of_lt_mul hf) _ (Nat.mod_lt _ hpos)]

theorem sameVector_writeVector {s s' : State} {d : RegNum} {m : Nat} {y y' : IntVector} (hm : m ≤ 5)
    (h : ∀ i < m, y i = y' i) :
    SameVector (writeVector d m y s).vectors[d] (writeVector d m y' s').vectors[d] := by
  rw [writeVector_vectors_self, writeVector_vectors_self]
  refine ⟨rfl, fun f hf => ?_⟩
  have hlen : u32 (s.vectors[d].withValue m y).len = m := u32_toWord_natCast (by omega)
  rw [hlen] at hf
  rw [VectorReg.withValue_d, VectorReg.withValue_d, if_pos hf, if_pos hf, h _ hf]

/-! ## Agreeing answers -/

/-- Two answers to the command `i` agree: the same outcome, and on `OK` the same result (R25, R72). -/
def SameAnswer (i : Instr) (o o' : Answer) : Prop :=
  ∃ c u u', o = complete c u ∧ o' = complete c u' ∧ (c = .ok → SameResult i u u')

theorem SameAnswer.failed {i : Instr} (c : OutcomeCode) (u u' : State) (hc : c ≠ .ok := by decide) :
    SameAnswer i (complete c u) (complete c u') :=
  ⟨c, u, u', rfl, rfl, fun h => absurd h hc⟩

theorem SameAnswer.ok {i : Instr} {u u' : State} (h : SameResult i u u') :
    SameAnswer i (complete .ok u) (complete .ok u') :=
  ⟨.ok, u, u', rfl, rfl, fun _ => h⟩

/-- Both answers take the same branch of a test. -/
theorem SameAnswer.ite {i : Instr} {p p' : Prop} [Decidable p] [Decidable p'] {x x' y y' : Answer} (hp : p ↔ p')
    (hx : p → SameAnswer i x x') (hy : ¬p → SameAnswer i y y') :
    SameAnswer i (if p then x else y) (if p' then x' else y') := by
  by_cases h : p
  · rw [if_pos h, if_pos (hp.1 h)]; exact hx h
  · rw [if_neg h, if_neg (mt hp.2 h)]; exact hy h

/-- A result is no part of `STATUS.ERR`. -/
theorem sameResult_withErr {i : Instr} {u u' : State} (h : SameResult i u u') (e e' : BitVec 4) :
    SameResult i { u with err := e } { u' with err := e' } := by
  cases i <;> exact h

theorem SameAnswer.next {i : Instr} {o o' : Answer} {t t' : State} (h : SameAnswer i o o') (ht : o = .next t)
    (ht' : o' = .next t') : t.err = t'.err ∧ (t.err = 0#4 → SameResult i t t') := by
  obtain ⟨c, u, u', rfl, rfl, hres⟩ := h
  have hok := code_of_complete_ok ht
  cases ht
  cases ht'
  exact ⟨rfl, fun he => sameResult_withErr (hres (hok he)) _ _⟩

/-! ## Each command on two states with the same operands -/

section
variable {s s' : State} (hmod : s.modulus = s'.modulus)
include hmod

theorem modulusOf_congr : modulusOf s' = modulusOf s := by rw [modulusOf, modulusOf, hmod]

theorem modulusLegal_congr : modulusLegal s' = modulusLegal s := by
  rw [modulusLegal, modulusLegal, modulusOf_congr hmod]

variable {a b d : RegNum}

/-- The tests all matrix commands begin with (R75) go the same way in both states. -/
theorem SameAnswer.guarded {i : Instr} {x x' : Answer} (ha : SameMatrix s.matrices[a] s'.matrices[a])
    (hx : ordOf s a ≤ 5 → SameAnswer i x x') :
    SameAnswer i
      (if !modulusLegal s then complete .badModulus s
        else if !orderLegal s a then complete .badOrder s else x)
      (if !modulusLegal s' then complete .badModulus s'
        else if !orderLegal s' a then complete .badOrder s' else x') := by
  have hord : orderLegal s' a = orderLegal s a := by rw [orderLegal, orderLegal, ordOf_congr ha]
  refine .ite (by rw [modulusLegal_congr hmod]) (fun _ => .failed .badModulus _ _) fun _ => ?_
  refine .ite (by rw [hord]) (fun _ => .failed .badOrder _ _) fun ho => hx ?_
  exact ((orderLegal_iff s a).1 (by simpa using ho)).2

theorem execModinv_sameAnswer (ha : s.scalars[a] = s'.scalars[a]) :
    SameAnswer (.modinv d a) (execModinv d a s) (execModinv d a s') := by
  have hx : scalarOf s' a = scalarOf s a := congrArg s32 ha.symm
  unfold execModinv
  rw [hx, modulusOf_congr hmod]
  refine .ite (by rw [modulusLegal_congr hmod]) (fun _ => .failed .badModulus _ _) fun _ => ?_
  dsimp only
  cases modInverse (reduce (scalarOf s a) (modulusOf s)) (modulusOf s) with
  | none => exact .failed .notInvertible _ _
  | some x => exact .ok ⟨by simp, rfl⟩

theorem execMdet_sameAnswer (ha : SameMatrix s.matrices[a] s'.matrices[a]) :
    SameAnswer (.mdet d a) (execMdet d a s) (execMdet d a s') := by
  refine .guarded hmod ha fun hm => ?_
  rw [ordOf_congr ha, det_congr _ (matOf_congr ha hm), modulusOf_congr hmod]
  refine .ok ⟨?_, rfl⟩
  simp

theorem execMadj_sameAnswer (ha : SameMatrix s.matrices[a] s'.matrices[a]) :
    SameAnswer (.madj d a) (execMadj d a s) (execMadj d a s') := by
  refine .guarded hmod ha fun hm => ?_
  rw [ordOf_congr ha, modulusOf_congr hmod]
  exact .ok (sameMatrix_writeMatrix hm fun i _ j _ => by rw [adj_congr (matOf_congr ha hm)])

theorem execMinv_sameAnswer (ha : SameMatrix s.matrices[a] s'.matrices[a]) :
    SameAnswer (.minv d a) (execMinv d a s) (execMinv d a s') := by
  refine .guarded hmod ha fun hm => ?_
  rw [ordOf_congr ha, inverseMod_congr (matOf_congr ha hm), modulusOf_congr hmod]
  cases inverseMod (ordOf s a) (matOf s' a) (modulusOf s) with
  | none => exact .failed .notInvertible _ _
  | some Y => exact .ok ⟨sameMatrix_writeMatrix hm fun _ _ _ _ => rfl, rfl⟩

theorem execMmul_sameAnswer (ha : SameMatrix s.matrices[a] s'.matrices[a])
    (hb : SameMatrix s.matrices[b] s'.matrices[b]) :
    SameAnswer (.mmul d a b) (execMmul d a b s) (execMmul d a b s') := by
  refine .guarded hmod ha fun hm => ?_
  rw [ordOf_congr ha, ordOf_congr hb, modulusOf_congr hmod]
  refine .ite Iff.rfl (fun _ => .failed .dimensionMismatch _ _) fun hab => .ok (sameMatrix_writeMatrix hm ?_)
  have hB := matOf_congr hb (by omega)
  rw [not_not.1 hab] at hB
  exact productMod_congr (matOf_congr ha hm) hB _

theorem execMvmul_sameAnswer (ha : SameMatrix s.matrices[a] s'.matrices[a])
    (hb : SameVector s.vectors[b] s'.vectors[b]) :
    SameAnswer (.mvmul d a b) (execMvmul d a b s) (execMvmul d a b s') := by
  refine .guarded hmod ha fun hm => ?_
  have hlen : lenOf s' b = lenOf s b := congrArg u32 hb.1.symm
  rw [ordOf_congr ha, hlen, modulusOf_congr hmod]
  refine .ite Iff.rfl (fun _ => .failed .sizeMismatch _ _) fun hab => .ok (sameVector_writeVector hm ?_)
  have hx := vecOf_congr hb (by omega)
  rw [not_not.1 hab] at hx
  exact vectorProductMod_congr (matOf_congr ha hm) hx _

end

/-- Settles O26: each command takes the same branches on the same operands, and writes values computed from them. -/
theorem resultDependsOnTheNamedOperandsOnly : Obligations.ResultDependsOnTheNamedOperandsOnly := by
  rintro i s s' t t' ⟨hmod, hsrc⟩ ht ht'
  cases i with
  | modinv d a => exact (execModinv_sameAnswer hmod hsrc).next ht ht'
  | mdet d a => exact (execMdet_sameAnswer hmod hsrc).next ht ht'
  | madj d a => exact (execMadj_sameAnswer hmod hsrc).next ht ht'
  | minv d a => exact (execMinv_sameAnswer hmod hsrc).next ht ht'
  | mmul d a b => exact (execMmul_sameAnswer hmod hsrc.1 hsrc.2).next ht ht'
  | mvmul d a b => exact (execMvmul_sameAnswer hmod hsrc.1 hsrc.2).next ht ht'

end Sys2Proof.Machine
end

section
/-! PROOFS. The host port, family 20_memory: what a read returns, what a write stores and leaves, that both are
idempotent, and that a move is served the same whatever moves come after it. -/

namespace Sys2Proof.Machine

/-! ## Reads -/

/-- A read sees the register its index names (R28, R29). -/
theorem portRead_of_toNat {idx : BitVec 8} {n : Nat} {r : PortReg} (hn : idx.toNat = n)
    (hr : portReg (BitVec.ofNat 8 n) = r) (s : State) : portRead idx s = r.read s := by
  rw [portRead, index_of_toNat hn, hr]

theorem portRead_congr {s t : State} (h : SameEngine s t) (idx : BitVec 8) : portRead idx s = portRead idx t :=
  PortReg.read_congr h (portReg idx)

theorem step_read {s : State} {idx : BitVec 8} {rest : List HostMove} (hp : s.pending = .read idx :: rest) :
    step s = .next { s with pending := rest, returned := s.returned ++ [portRead idx s] } := by
  have hread : portRead idx { s with pending := rest } = portRead idx s :=
    portRead_congr ⟨rfl, rfl, rfl, rfl, rfl, rfl⟩ idx
  rw [step_cons hp, serve, hread]

/-- Settles O11: each clause's index names the register whose word the clause gives. -/
theorem readReturnsTheWordOfItsIndex : Obligations.ReadReturnsTheWordOfItsIndex := by
  intro s idx rest hp
  refine ⟨portRead idx s, step_read hp, ?_, ?_, ?_, ?_, ?_, ?_, ?_, ?_, ?_⟩
  · exact fun h => portRead_of_toNat (r := .cmd) h rfl s
  · exact fun h => (portRead_of_toNat (r := .status) h rfl s).symm ▸ statusWord_toNat s
  · exact fun h => portRead_of_toNat (r := .modulus) h rfl s
  · exact fun i h => portRead_of_toNat h (portReg_scalar i) s
  · exact fun k h => portRead_of_toNat h (portReg_vectorLen k) s
  · exact fun k i h => portRead_of_toNat h (portReg_vectorData k i) s
  · exact fun k h => portRead_of_toNat h (portReg_matrixOrd k) s
  · exact fun k f h => portRead_of_toNat h (portReg_matrixData k f) s
  · intro h
    rw [portRead, (portReg_reserved_iff idx).2 h, PortReg.read]

/-! ## Writes -/

/-- `STATUS` and the reserved indexes ignore what is written to them (R30, R31). -/
theorem portWrite_ignored {idx : BitVec 8} (h : portReg idx = .status ∨ portReg idx = .reserved) (w : Word)
    (s : State) : portWrite idx w s = .next s := by
  rcases h with h | h <;> rw [portWrite, h, PortReg.write]

/-- A write to a read-write register reads back at its index and at no other index (R30). -/
theorem portWrite_stored {idx : BitVec 8} (hcmd : portReg idx ≠ .cmd) (hstatus : portReg idx ≠ .status)
    (hreserved : portReg idx ≠ .reserved) (w : Word) (s : State) :
    ∃ t, portWrite idx w s = .next t ∧ t.pending = s.pending ∧ t.returned = s.returned ∧ portRead idx t = w ∧
      ∀ j : BitVec 8, j ≠ idx → portRead j t = portRead j s := by
  obtain ⟨t, ht, hpending, hreturned, _, hself, hother⟩ := PortReg.write_spec (portReg idx) w s hcmd
  refine ⟨t, ht, hpending, hreturned, hself hstatus hreserved, fun j hj => hother (portReg j) fun hreg => hj ?_⟩
  exact (portReg_injective hreg.symm hreserved).symm

/-- Settles O12: the index is `CMD`, `STATUS` or reserved, or it names a read-write register. -/
theorem writeStoresTheWordAndNothingElse : Obligations.WriteStoresTheWordAndNothingElse := by
  intro s idx w rest hp
  have hserve : step s = portWrite idx w { s with pending := rest } := step_cons hp
  rw [hserve]
  refine ⟨fun h => ?_, fun h => portWrite_ignored (h.imp (fun h1 => ?_) (portReg_reserved_iff idx).2) w _,
    fun h0 h1 hres => ?_⟩
  · rw [portWrite, (portReg_eq_cmd_iff idx).2 (index_of_toNat h), PortReg.write]
  · exact (portReg_eq_status_iff idx).2 (index_of_toNat h1)
  · obtain ⟨t, ht, hpending, hreturned, hself, hother⟩ := portWrite_stored
      (fun hcmd => h0 (congrArg BitVec.toNat ((portReg_eq_cmd_iff idx).1 hcmd)))
      (fun hstatus => h1 (congrArg BitVec.toNat ((portReg_eq_status_iff idx).1 hstatus)))
      (mt (portReg_reserved_iff idx).1 hres) w { s with pending := rest }
    refine ⟨t, ht, hpending, hreturned, hself, fun j hj => (hother j hj).trans ?_⟩
    exact portRead_congr ⟨rfl, rfl, rfl, rfl, rfl, rfl⟩ j

/-- Writing the same word a second time, anywhere but at `CMD`, changes nothing more (R34). -/
theorem PortReg.write_idempotent {r : PortReg} {w : Word} {s t : State} (hr : r ≠ .cmd)
    (h : r.write w s = .next t) : r.write w t = .next t := by
  cases r with
  | cmd => exact absurd rfl hr
  | status => exact rfl
  | reserved => exact rfl
  | _ => cases h; simp [PortReg.write]

/-! ## The moves to come -/

/-- A move is served the same whatever moves come after it (R35). -/
theorem step_of_serve {move : HostMove} {s t : State} (h : serve move s = .next t) (rest : List HostMove) :
    step { s with pending := move :: rest } = .next { t with pending := rest } := by
  have hstep : step { s with pending := move :: rest } = serve move { s with pending := rest } := step_cons rfl
  rw [hstep, serve_pending, h, Answer.mapState]

/-- Settles O14: the second read sees the engine the first one saw, and the second write finds its word stored. -/
theorem transactionsAreIdempotent : Obligations.TransactionsAreIdempotent := by
  intro s idx w rest
  refine ⟨fun hp => ⟨portRead idx s, ?_⟩, fun hidx hp => ?_⟩
  · have hread : ∀ l q, portRead idx { s with pending := l, returned := q } = portRead idx s := fun l q =>
      portRead_congr ⟨rfl, rfl, rfl, rfl, rfl, rfl⟩ idx
    rw [run_succ (step_read hp), run_succ (step_read rfl), run_zero, hread, List.append_assoc]
    rfl
  · obtain ⟨t, ht, _⟩ := serve_answers (.write idx w) s
    have hagain : serve (.write idx w) t = .next t :=
      PortReg.write_idempotent (mt (portReg_eq_cmd_iff idx).1 hidx) ht
    have hfirst : step s = .next { t with pending := .write idx w :: rest } := by
      rw [← step_of_serve ht, ← hp]
    refine ⟨{ t with pending := rest }, ?_, step_of_serve ht rest⟩
    rw [run_succ hfirst, run_succ (step_of_serve hagain rest), run_zero]

/-- Settles O17, by induction on the moves `xs`: the first of them is served the same with `ys` behind it, and the rest
run from the state it leaves. -/
theorem eventsSeeEarlierOnesOnly : Obligations.EventsSeeEarlierOnesOnly := by
  intro s xs ys
  induction xs generalizing s with
  | nil => exact ⟨{ s with pending := [] }, rfl, rfl, rfl⟩
  | cons move xs ih =>
    obtain ⟨u, hu, _⟩ := serve_answers move s
    obtain ⟨t, halone, hbefore, hwhole⟩ := ih u
    refine ⟨t, ?_, ?_, ?_⟩
    · exact (run_succ (step_of_serve hu xs) xs.length).trans halone
    · exact (run_succ (step_of_serve hu (xs ++ ys)) xs.length).trans hbefore
    · exact (run_succ (step_of_serve hu (xs ++ ys)) (xs ++ ys).length).trans hwhole

end Sys2Proof.Machine
end

section
/-! PROOFS. Shared rules of the family 30_encoding: a word is its fields put together, a command has the fields it is
written with, and decoding reads exactly those. -/

namespace Sys2Proof

/-! ## Words and their fields -/

/-- A register number as the 2 bits of a field (R45). -/
def regBits (r : RegNum) : BitVec 2 := BitVec.ofFin r

@[simp] theorem regNum_regBits (r : RegNum) : regNum (regBits r) = r := rfl

theorem CFields.ext {f g : CFields} (hop : f.op = g.op) (hrd : f.rd = g.rd) (hra : f.ra = g.ra) (hrb : f.rb = g.rb)
    (hrsv : f.rsv = g.rsv) : f = g :=
  (CFields.mk.injEq ..).mpr ⟨hop, hrd, hra, hrb, hrsv⟩

/-- A field moved to its place in a word, bit `k` up (R39). -/
def place {n : Nat} (b : BitVec n) (k : Nat) : Word := b.setWidth 32 <<< k

/-- All ones in a field of `n` bits. -/
def placeMask (n k : Nat) : Word := place (BitVec.allOnes n) k

theorem place_extractLsb' (w : Word) (k n : Nat) : place (w.extractLsb' k n) k = w &&& placeMask n k := by
  ext i hi
  by_cases hk : i < k
  · simp [place, placeMask, hk]
  · have hki : k + (i - k) = i := by omega
    simp [place, placeMask, hk, hki, Bool.and_comm, hi]

theorem extractLsb'_place_same {n k : Nat} (h : k + n ≤ 32) (b : BitVec n) : (place b k).extractLsb' k n = b := by
  ext i hi
  have h32 : k + i < 32 := by omega
  simp [place, h32, hi]

theorem extractLsb'_place_other {n k m j : Nat} (h : k + n ≤ j ∨ j + m ≤ k) (b : BitVec n) :
    (place b k).extractLsb' j m = 0#m := by
  ext i hi
  simp only [place, BitVec.getElem_extractLsb', BitVec.getLsbD_shiftLeft, BitVec.getLsbD_setWidth]
  rcases h with h | h
  · have : b.getLsbD (j + i - k) = false := BitVec.getLsbD_of_ge _ _ (by omega)
    simp [this]
  · have : j + i < k := by omega
    simp [this]

/-- A placed field has no bit where a mask is clear of its place. -/
theorem place_and_eq_zero {n k : Nat} (h : k + n ≤ 32) {m : Word} (hm : placeMask n k &&& m = 0#32) (b : BitVec n) :
    place b k &&& m = 0#32 := by
  have hb := place_extractLsb' (place b k) k n
  rw [extractLsb'_place_same h] at hb
  rw [hb, BitVec.and_assoc, hm, BitVec.and_zero]

/-- The word of given fields, each moved to its place (R39). -/
def CFields.assemble (f : CFields) : Word :=
  place f.op 0 ||| place f.rd 8 ||| place f.ra 12 ||| place f.rb 16 ||| f.rsv

/-- No bit of a word lies outside its fields. -/
theorem assemble_fieldsOf (w : Word) : (fieldsOf w).assemble = w :=
  calc (fieldsOf w).assemble
    _ = w &&& placeMask 8 0 ||| w &&& placeMask 2 8 ||| w &&& placeMask 2 12 ||| w &&& placeMask 2 16 |||
        w &&& 0xFFFCCC00#32 := by simp only [← place_extractLsb']; rfl
    _ = w &&& BitVec.allOnes 32 := by simp only [← BitVec.and_or_distrib_left]; rfl
    _ = w := BitVec.and_allOnes

theorem fieldsOf_injective {w v : Word} (h : fieldsOf w = fieldsOf v) : w = v := by
  rw [← assemble_fieldsOf w, h, assemble_fieldsOf]

/-- No two fields share a bit. -/
theorem fieldsOf_assemble {f : CFields} (h : f.rsv = 0#32) : fieldsOf f.assemble = f := by
  obtain ⟨op, rd, ra, rb, rsv⟩ := f
  subst h
  have hop : place op 0 &&& 0xFFFCCC00#32 = 0#32 := place_and_eq_zero (by decide) (by decide) op
  have hrd : place rd 8 &&& 0xFFFCCC00#32 = 0#32 := place_and_eq_zero (by decide) (by decide) rd
  have hra : place ra 12 &&& 0xFFFCCC00#32 = 0#32 := place_and_eq_zero (by decide) (by decide) ra
  have hrb : place rb 16 &&& 0xFFFCCC00#32 = 0#32 := place_and_eq_zero (by decide) (by decide) rb
  simp [fieldsOf, CFields.assemble, BitVec.extractLsb, BitVec.extractLsb'_or, extractLsb'_place_other,
    extractLsb'_place_same, BitVec.and_or_distrib_right, hop, hrd, hra, hrb]

/-! ## Commands and their fields -/

/-- The fields a command is written with: `rb` is 0 where there is no second source, the reserved bits are 0 (R46). -/
def commandFields : Instr → CFields
  | .modinv d a => ⟨1#8, regBits d, regBits a, 0#2, 0#32⟩
  | .mdet d a => ⟨2#8, regBits d, regBits a, 0#2, 0#32⟩
  | .madj d a => ⟨3#8, regBits d, regBits a, 0#2, 0#32⟩
  | .minv d a => ⟨4#8, regBits d, regBits a, 0#2, 0#32⟩
  | .mmul d a b => ⟨5#8, regBits d, regBits a, regBits b, 0#32⟩
  | .mvmul d a b => ⟨6#8, regBits d, regBits a, regBits b, 0#32⟩

@[simp] theorem commandFields_rsv (i : Instr) : (commandFields i).rsv = 0#32 := by
  cases i <;> rfl

theorem regField_eq_place (r : RegNum) (k : Nat) : regField r k = place (regBits r) k :=
  regField_regNum (regBits r) k

/-- The encoder puts the command's fields together (R46). -/
theorem encode_eq_assemble (i : Instr) : encode i = (commandFields i).assemble := by
  cases i <;> simp [encode, opcodeOf, commandFields, CFields.assemble, regField_eq_place, place]

theorem fieldsOf_encode (i : Instr) : fieldsOf (encode i) = commandFields i := by
  rw [encode_eq_assemble, fieldsOf_assemble (commandFields_rsv i)]

/-- A word decodes to a command iff its fields are the command's (R43). -/
theorem decode_eq_command_iff (w : Word) (i : Instr) : decode w = .command i ↔ fieldsOf w = commandFields i := by
  constructor
  · intro h
    rcases decode_cases w with ⟨_, hd⟩ | ⟨hrsv, ⟨hop, hrb, hd⟩ | ⟨hop, hrb, hd⟩ | ⟨hop, hrb, hd⟩ | ⟨hop, hrb, hd⟩ |
        ⟨hop, hd⟩ | ⟨hop, hd⟩ | ⟨_, _, hd⟩ | ⟨_, hd⟩⟩ <;>
      cases hd.symm.trans h
    iterate 4 exact CFields.ext hop rfl rfl hrb hrsv
    iterate 2 exact CFields.ext hop rfl rfl rfl hrsv
  · intro h
    cases i <;> simp [decode, h, commandFields]

/-- A word decodes to a command iff it is the word the command is written as. -/
theorem decode_eq_command_iff_encode (w : Word) (i : Instr) : decode w = .command i ↔ encode i = w := by
  rw [decode_eq_command_iff, ← fieldsOf_encode]
  exact ⟨fun h => (fieldsOf_injective h).symm, fun h => h ▸ rfl⟩

theorem encode_injective : Function.Injective encode := fun i j h => by
  have hi := (decode_eq_command_iff_encode (encode j) i).2 h
  have hj := (decode_eq_command_iff_encode (encode j) j).2 rfl
  exact Decoded.command.inj (hi.symm.trans hj)

/-- Every word is a command or illegal (R43). -/
theorem decode_command_or_illegal (w : Word) :
    (∃ i, decode w = .command i) ∨ ∃ why, decode w = .illegal why := by
  cases decode w with
  | command i => exact .inl ⟨i, rfl⟩
  | illegal why => exact .inr ⟨why, rfl⟩

theorem decode_illegal_of_fields_ne {w : Word} (h : ∀ i, fieldsOf w ≠ commandFields i) :
    ∃ why, decode w = .illegal why :=
  (decode_command_or_illegal w).resolve_left fun ⟨i, hi⟩ => h i ((decode_eq_command_iff w i).1 hi)

/-! ## The format's conditions, and the fields as numbers -/

theorem fieldsOf_op_eq_mod (w : Word) : (fieldsOf w).op.toNat = w.toNat % 256 := by
  rw [fieldsOf_op_toNat, BitVec.toNat_and]
  exact Nat.and_two_pow_sub_one_eq_mod w.toNat 8

theorem fieldsOf_rd_eq_div_mod (w : Word) : (fieldsOf w).rd.toNat = w.toNat / 256 % 4 := by
  simp [fieldsOf, Nat.shiftRight_eq_div_pow]

theorem fieldsOf_ra_eq_div_mod (w : Word) : (fieldsOf w).ra.toNat = w.toNat / 4096 % 4 := by
  simp [fieldsOf, Nat.shiftRight_eq_div_pow]

theorem fieldsOf_rb_eq_div_mod (w : Word) : (fieldsOf w).rb.toNat = w.toNat / 65536 % 4 := by
  simp [fieldsOf, Nat.shiftRight_eq_div_pow]

theorem regBits_eq_of_toNat {b : BitVec 2} {r : RegNum} (h : r.val = b.toNat) : b = regBits r :=
  BitVec.eq_of_toNat_eq h.symm

theorem fieldsOf_eq_of_numbers {w : Word} {rd ra rb : RegNum} (hd : rd.val = w.toNat / 256 % 4)
    (ha : ra.val = w.toNat / 4096 % 4) (hb : rb.val = w.toNat / 65536 % 4) :
    fieldsOf w = ⟨BitVec.ofNat 8 (w.toNat % 256), regBits rd, regBits ra, regBits rb, w &&& 0xFFFCCC00#32⟩ :=
  CFields.ext (BitVec.eq_of_toNat_eq (by simp [fieldsOf_op_eq_mod]))
    (regBits_eq_of_toNat (hd.trans (fieldsOf_rd_eq_div_mod w).symm))
    (regBits_eq_of_toNat (ha.trans (fieldsOf_ra_eq_div_mod w).symm))
    (regBits_eq_of_toNat (hb.trans (fieldsOf_rb_eq_div_mod w).symm)) rfl

theorem commandFields_op_rb (i : Instr) :
    1 ≤ (commandFields i).op.toNat ∧ (commandFields i).op.toNat ≤ 6 ∧
      (5 ≤ (commandFields i).op.toNat ∨ (commandFields i).rb = 0#2) := by
  cases i <;> simp [commandFields]

/-- Masking a word masks each of its fields. -/
theorem fieldsOf_and (w m : Word) :
    fieldsOf (w &&& m) = ⟨(fieldsOf w).op &&& (fieldsOf m).op, (fieldsOf w).rd &&& (fieldsOf m).rd,
      (fieldsOf w).ra &&& (fieldsOf m).ra, (fieldsOf w).rb &&& (fieldsOf m).rb, w &&& (fieldsOf m).rsv⟩ := by
  apply CFields.ext <;> simp [fieldsOf, BitVec.extractLsb_and, BitVec.and_assoc]

@[simp] theorem and_fullByte (b : BitVec 8) : b &&& 0xFF#8 = b := BitVec.and_allOnes

@[simp] theorem and_fullField (b : BitVec 2) : b &&& 3#2 = b := BitVec.and_allOnes

/-- A masked word is compared field by field. -/
theorem and_eq_iff (w m v : Word) :
    w &&& m = v ↔ (fieldsOf w).op &&& (fieldsOf m).op = (fieldsOf v).op ∧
      (fieldsOf w).rd &&& (fieldsOf m).rd = (fieldsOf v).rd ∧ (fieldsOf w).ra &&& (fieldsOf m).ra = (fieldsOf v).ra ∧
      (fieldsOf w).rb &&& (fieldsOf m).rb = (fieldsOf v).rb ∧ w &&& (fieldsOf m).rsv = (fieldsOf v).rsv := by
  rw [← CFields.mk.injEq, ← fieldsOf_and]
  exact ⟨fun h => congrArg fieldsOf h, fieldsOf_injective⟩

theorem and_secondSource_eq_zero_iff (w : Word) : w &&& 0x30000#32 = 0#32 ↔ (fieldsOf w).rb = 0#2 := by
  rw [and_eq_iff]
  simp [fieldsOf]

/-- The three conditions of the format, said of the fields (R39, R41). -/
theorem wellFormedWord_iff (w : Word) :
    wellFormedWord w = true ↔ (fieldsOf w).rsv = 0#32 ∧
      (1 ≤ (fieldsOf w).op.toNat ∧ (fieldsOf w).op.toNat ≤ 6) ∧
      (5 ≤ (fieldsOf w).op.toNat ∨ (fieldsOf w).rb = 0#2) := by
  simp [wellFormedWord, reservedBitsZero, opcodeAssigned, secondSourceAllowed, BitVec.le_def, fieldsOf_op_toNat,
    fieldsOf_rsv, and_secondSource_eq_zero_iff, and_assoc]

/-! ## The rows of the opcode table -/

/-- The word with only an opcode. -/
theorem fieldsOf_setWidth (op : BitVec 8) : fieldsOf (op.setWidth 32) = ⟨op, 0#2, 0#2, 0#2, 0#32⟩ := by
  simpa [CFields.assemble, place] using fieldsOf_assemble (f := ⟨op, 0#2, 0#2, 0#2, 0#32⟩) rfl

theorem fieldsOf_oneSourceMask : fieldsOf 0xFFFFCCFF#32 = ⟨0xFF#8, 0#2, 0#2, 3#2, 0xFFFCCC00#32⟩ := by decide

theorem fieldsOf_twoSourceMask : fieldsOf 0xFFFCCCFF#32 = ⟨0xFF#8, 0#2, 0#2, 0#2, 0xFFFCCC00#32⟩ := by decide

/-- The mask of a one-source row keeps the opcode, `rb` and the reserved bits (R42). -/
theorem and_oneSourceMask_iff (w : Word) (op : BitVec 8) :
    w &&& 0xFFFFCCFF#32 = op.setWidth 32 ↔
      (fieldsOf w).op = op ∧ (fieldsOf w).rb = 0#2 ∧ (fieldsOf w).rsv = 0#32 := by
  rw [and_eq_iff, fieldsOf_setWidth, fieldsOf_oneSourceMask]
  simp [fieldsOf_rsv]

/-- The mask of a two-source row keeps the opcode and the reserved bits (R42). -/
theorem and_twoSourceMask_iff (w : Word) (op : BitVec 8) :
    w &&& 0xFFFCCCFF#32 = op.setWidth 32 ↔ (fieldsOf w).op = op ∧ (fieldsOf w).rsv = 0#32 := by
  rw [and_eq_iff, fieldsOf_setWidth, fieldsOf_twoSourceMask]
  simp [fieldsOf_rsv]

/-- A one-source row: the two fields its mask drops are its two registers. -/
theorem one_source_row_iff (w : Word) (op : BitVec 8) {c : RegNum → RegNum → Instr}
    (hc : ∀ d a, commandFields (c d a) = ⟨op, regBits d, regBits a, 0#2, 0#32⟩) :
    (∃ d a, decode w = .command (c d a)) ↔ w &&& 0xFFFFCCFF#32 = op.setWidth 32 := by
  simp only [decode_eq_command_iff, hc, and_oneSourceMask_iff]
  constructor
  · rintro ⟨d, a, h⟩
    simp [h]
  · rintro ⟨hop, hrb, hrsv⟩
    exact ⟨regNum (fieldsOf w).rd, regNum (fieldsOf w).ra, CFields.ext hop rfl rfl hrb hrsv⟩

/-- A two-source row: the three fields its mask drops are its three registers. -/
theorem two_source_row_iff (w : Word) (op : BitVec 8) {c : RegNum → RegNum → RegNum → Instr}
    (hc : ∀ d a b, commandFields (c d a b) = ⟨op, regBits d, regBits a, regBits b, 0#32⟩) :
    (∃ d a b, decode w = .command (c d a b)) ↔ w &&& 0xFFFCCCFF#32 = op.setWidth 32 := by
  simp only [decode_eq_command_iff, hc, and_twoSourceMask_iff]
  constructor
  · rintro ⟨d, a, b, h⟩
    simp [h]
  · rintro ⟨hop, hrsv⟩
    exact ⟨regNum (fieldsOf w).rd, regNum (fieldsOf w).ra, regNum (fieldsOf w).rb, CFields.ext hop rfl rfl rfl hrsv⟩

/-! ## The number of commands -/

/-- A command is a row of the table with its register numbers. -/
def instrEquivRegs : Instr ≃ (RegNum × RegNum) ⊕ (RegNum × RegNum) ⊕ (RegNum × RegNum) ⊕ (RegNum × RegNum) ⊕
    (RegNum × RegNum × RegNum) ⊕ (RegNum × RegNum × RegNum) where
  toFun
    | .modinv d a => .inl (d, a)
    | .mdet d a => .inr (.inl (d, a))
    | .madj d a => .inr (.inr (.inl (d, a)))
    | .minv d a => .inr (.inr (.inr (.inl (d, a))))
    | .mmul d a b => .inr (.inr (.inr (.inr (.inl (d, a, b)))))
    | .mvmul d a b => .inr (.inr (.inr (.inr (.inr (d, a, b)))))
  invFun
    | .inl (d, a) => .modinv d a
    | .inr (.inl (d, a)) => .mdet d a
    | .inr (.inr (.inl (d, a))) => .madj d a
    | .inr (.inr (.inr (.inl (d, a)))) => .minv d a
    | .inr (.inr (.inr (.inr (.inl (d, a, b))))) => .mmul d a b
    | .inr (.inr (.inr (.inr (.inr (d, a, b))))) => .mvmul d a b
  left_inv i := by cases i <;> rfl
  right_inv r := by rcases r with _ | _ | _ | _ | _ | _ <;> rfl

/-- Four rows of 16 commands and two of 64 (R42). -/
theorem card_instr : Nat.card Instr = 192 := by
  rw [Nat.card_congr instrEquivRegs]
  simp

end Sys2Proof
end

section
/-! PROOFS. The statements of the family 30_encoding. -/

namespace Sys2Proof

/-- Settles O1: the decoder reads the fields the encoder put together. -/
theorem decodeUndoesEncode : Obligations.DecodeUndoesEncode := fun i =>
  (decode_eq_command_iff_encode (encode i) i).2 rfl

/-- Settles O2: a word that decodes has the command's fields, and a word is its fields put together. -/
theorem encodeUndoesDecode : Obligations.EncodeUndoesDecode := fun w i =>
  (decode_eq_command_iff_encode w i).1

/-- Settles O3, case by case on what the word decodes to; a command's fields meet the conditions. -/
theorem decoderAcceptsExactlyTheWellFormedWords : Obligations.DecoderAcceptsExactlyTheWellFormedWords := by
  intro w
  rw [wellFormedWord_iff]
  constructor
  · rintro ⟨hrsv, ⟨hlo, hhi⟩, hsrc⟩
    rcases decode_cases w with ⟨hrsv', _⟩ | ⟨_, ⟨_, _, hd⟩ | ⟨_, _, hd⟩ | ⟨_, _, hd⟩ | ⟨_, _, hd⟩ | ⟨_, hd⟩ | ⟨_, hd⟩ |
      ⟨hop, hrb, _⟩ | ⟨hop, _⟩⟩
    · exact absurd hrsv hrsv'
    iterate 6 exact ⟨_, hd⟩
    · simp only [hrb, or_false, List.mem_cons, List.not_mem_nil, ← BitVec.toNat_inj, BitVec.toNat_ofNat] at hop hsrc
      omega
    · simp only [List.mem_cons, List.not_mem_nil, ← BitVec.toNat_inj, BitVec.toNat_ofNat] at hop
      omega
  · rintro ⟨i, hi⟩
    obtain ⟨hlo, hhi, hsrc⟩ := commandFields_op_rb i
    rw [(decode_eq_command_iff w i).1 hi]
    exact ⟨commandFields_rsv i, ⟨hlo, hhi⟩, hsrc⟩

/-- Settles O4: the numbers are the word's fields, and a word whose fields are no command's is illegal. -/
theorem wordsDecodeByTheirFields : Obligations.WordsDecodeByTheirFields := by
  intro w rd ra rb hd ha hb
  have hf := fieldsOf_eq_of_numbers hd ha hb
  refine ⟨fun hne => decode_illegal_of_fields_ne fun i hi => hne ?_, fun hrsv => ?_⟩
  · rw [← fieldsOf_rsv, hi, commandFields_rsv]
  simp only [decode_eq_command_iff, hf, hrsv]
  refine ⟨?_, ?_, ?_, ?_, ?_, ?_, fun hill => decode_illegal_of_fields_ne fun i hi => ?_⟩
  iterate 4 · rintro hop rfl; rw [hop]; rfl
  iterate 2 · intro hop; rw [hop]; rfl
  · obtain ⟨hlo, hhi, hsrc⟩ := commandFields_op_rb i
    rw [← hi, fieldsOf_op_eq_mod] at hlo hhi hsrc
    rw [hf] at hsrc
    rcases hill with h0 | h7 | ⟨h4, hb0⟩
    · omega
    · omega
    · exact hb0 (congrArg regNum (hsrc.resolve_left (by omega)))

/-- Settles O5, row by row. -/
theorem opcodeTableRowsMatchTheDecoder : Obligations.OpcodeTableRowsMatchTheDecoder := fun w =>
  ⟨one_source_row_iff w 1#8 fun _ _ => rfl, one_source_row_iff w 2#8 fun _ _ => rfl,
    one_source_row_iff w 3#8 fun _ _ => rfl, one_source_row_iff w 4#8 fun _ _ => rfl,
    two_source_row_iff w 5#8 fun _ _ _ => rfl, two_source_row_iff w 6#8 fun _ _ _ => rfl⟩

/-- Settles O6: the legal words are the words the 192 commands are written as, one word each. -/
theorem legalWordsNumber192 : Obligations.LegalWordsNumber192 := by
  have hrange : {w : Word | ∃ i, decode w = .command i} = Set.range encode := by
    ext w
    simp only [decode_eq_command_iff_encode, Set.mem_ofPred_eq, Set.mem_range]
  rw [Obligations.LegalWordsNumber192, hrange, Set.ncard_range_of_injective encode_injective, card_instr]

/-- Settles O7: each of the eight words is the one its command is written as (R46). -/
theorem writtenExamplesDecode : Obligations.WrittenExamplesDecode :=
  ⟨decodeUndoesEncode (.modinv 1 0), decodeUndoesEncode (.mdet 0 0), decodeUndoesEncode (.madj 1 0),
    decodeUndoesEncode (.minv 2 0), decodeUndoesEncode (.mmul 3 2 1), decodeUndoesEncode (.mvmul 1 0 0),
    decodeUndoesEncode (.modinv 2 3), decodeUndoesEncode (.mvmul 1 0 2), ⟨.reservedOpcode, by decide⟩,
    ⟨.secondSourceSet, by decide⟩⟩

/-- Settles O9: an illegal word completes with `ILLEGAL_COMMAND`, whose code is 4. -/
theorem illegalWordWritesOnlyErr : Obligations.IllegalWordWritesOnlyErr := by
  intro w
  refine (decode_command_or_illegal w).imp_right ?_
  rintro ⟨why, hw⟩ s
  simp only [Machine.executeCommand, hw]
  rfl

end Sys2Proof
end

section
/-! PROOFS. Shared rules of the family 40_scalar_modular: `reduce` against the floor quotient, the inverse as the one
solution of its congruence, and what `MODINV` and `MDET` can leave of the state. -/

namespace Sys2Proof.Machine

/-! ## reduce -/

theorem floor_div_eq_ediv {n : Int} (hn : 0 ≤ n) (x : Int) : ⌊(x : ℚ) / n⌋ = x / n := by
  lift n to ℕ using hn
  exact Rat.floor_intCast_div_natCast x n

/-- The remainder as the rules write it, with the floor quotient of rationals (R6). -/
theorem sub_mul_floor_eq_emod {n : Int} (hn : 0 ≤ n) (x : Int) : x - n * ⌊(x : ℚ) / n⌋ = x % n := by
  rw [floor_div_eq_ediv hn, Int.emod_def]

theorem reduce_eq_self_iff {n : Int} (hn : 0 < n) (x : Int) : reduce x n = x ↔ 0 ≤ x ∧ x < n :=
  ⟨fun h => h ▸ ⟨reduce_nonneg hn x, reduce_lt hn x⟩, fun h => reduce_of_range h.1 h.2⟩

theorem reduce_eq_one_iff {n : Int} (hn : 2 ≤ n) (x : Int) : reduce x n = 1 ↔ x ≡ 1 [ZMOD n] := by
  rw [← reduce_eq_reduce_iff (by omega) x 1, reduce_of_range (x := 1) (by omega) (by omega)]

/-- A factor may be reduced early (R50). -/
theorem reduce_mul_modEq {n : Int} (hn : 0 ≤ n) (a b : Int) : reduce a n * b ≡ a * b [ZMOD n] :=
  (reduce_modEq hn a).mul_right b

theorem reduce_mul_eq_one_iff {n : Int} (hn : 2 ≤ n) (a b : Int) :
    reduce (reduce a n * b) n = 1 ↔ a * b ≡ 1 [ZMOD n] := by
  have h := reduce_mul_modEq (n := n) (by omega) a b
  rw [reduce_eq_one_iff hn]
  exact ⟨h.symm.trans, h.trans⟩

/-! ## The modular inverse -/

/-- Two inverses of one operand in `[0, n)` are equal: each is the product of both with the operand. -/
theorem inverse_unique {n a b c : Int} (hb0 : 0 ≤ b) (hbn : b < n) (hc0 : 0 ≤ c) (hcn : c < n)
    (hb : a * b ≡ 1 [ZMOD n]) (hc : a * c ≡ 1 [ZMOD n]) : b = c := by
  refine eq_of_range_of_modEq hb0 hbn hc0 hcn ?_
  calc b = b * 1 := (mul_one b).symm
    _ ≡ b * (a * c) [ZMOD n] := hc.symm.mul_left b
    _ = a * b * c := by ring
    _ ≡ 1 * c [ZMOD n] := hb.mul_right c
    _ = c := one_mul c

/-- Were 0 an inverse, 1 would be a multiple of `n`: an inverse in `[0, n)` is at least 1 (R55). -/
theorem one_le_of_mul_modEq_one {n a b : Int} (hn : 2 ≤ n) (hb0 : 0 ≤ b) (hb : a * b ≡ 1 [ZMOD n]) : 1 ≤ b := by
  have hne : b ≠ 0 := by
    rintro rfl
    simpa [reduce] using (reduce_eq_one_iff hn _).2 hb
  omega

/-- An inverse is one half of a Bézout identity. -/
theorem gcd_eq_one_of_mul_modEq_one {n a b : Int} (h : a * b ≡ 1 [ZMOD n]) : gcdOf a n = 1 := by
  obtain ⟨k, hk⟩ := h.dvd
  exact (gcd_eq_one_iff_isCoprime a n).2 ⟨b, k, by linarith⟩

/-- `modInverse` is the solution in `[0, n)` of the congruence it is defined by (R52): the laws of R54 are read off. -/
theorem modInverse_eq_some_iff {n : Int} (hn : 2 ≤ n) (a b : Int) :
    modInverse a n = some b ↔ 0 ≤ b ∧ b < n ∧ a * b ≡ 1 [ZMOD n] := by
  rcases modInverse_cases hn a with ⟨hg, hm⟩ | ⟨_, c, hm, hc0, hcn, hc⟩
  · refine ⟨fun h => by simp [hm] at h, fun ⟨_, _, hb⟩ => absurd ?_ hg⟩
    exact gcd_eq_one_of_mul_modEq_one ((reduce_mul_modEq (by omega) a b).trans hb)
  · rw [hm, Option.some.injEq]
    exact ⟨fun h => h ▸ ⟨hc0, hcn, hc⟩, fun ⟨hb0, hbn, hb⟩ => inverse_unique hc0 hcn hb0 hbn hc hb⟩

/-! ## MODINV and MDET on the state -/

/-- `MODINV` writes any inverse of its operand in `[0, n)`, there being only one. -/
theorem execModinv_eq_of_inverse {d a : RegNum} {s : State} {b : Int} (hn : 2 ≤ modulusOf s) (hb0 : 0 ≤ b)
    (hbn : b < modulusOf s) (hb : scalarOf s a * b ≡ 1 [ZMOD modulusOf s]) :
    execModinv d a s = complete .ok (setCoprime true (writeScalar d b s)) := by
  have hx : reduce (scalarOf s a) (modulusOf s) * b ≡ 1 [ZMOD modulusOf s] :=
    (reduce_mul_modEq (by omega) _ b).trans hb
  simp [execModinv, (modulusLegal_iff s).2 hn, (modInverse_eq_some_iff hn _ b).2 ⟨hb0, hbn, hx⟩]

/-- A command with a scalar destination changes `STATUS` and at most the word `S[d]` (R55, R65). -/
theorem exec_scalar_shape {i : Instr} {d a : RegNum} {s t : State} (hi : i = .modinv d a ∨ i = .mdet d a)
    (h : exec i s = .next t) :
    ∃ e c, t = { s with err := e, cp := c } ∨
      ∃ w, t = { s with scalars := s.scalars.set d w, err := e, cp := c } := by
  rcases hi with rfl | rfl
  · rcases execModinv_cases d a s with ⟨_, h'⟩ | ⟨_, _, h'⟩ | ⟨_, _, b, _, _, _, _, h'⟩ <;> cases h'.symm.trans h
    · exact ⟨_, _, .inl rfl⟩
    · exact ⟨_, _, .inl rfl⟩
    · exact ⟨_, _, .inr ⟨_, rfl⟩⟩
  · rcases execMdet_cases d a s with ⟨_, h'⟩ | ⟨_, _, h'⟩ | ⟨_, _, h'⟩ <;> cases h'.symm.trans h
    · exact ⟨_, _, .inl rfl⟩
    · exact ⟨_, _, .inl rfl⟩
    · exact ⟨_, _, .inr ⟨_, rfl⟩⟩

theorem scalars_set_ne {d k : RegNum} (h : k ≠ d) (v : Vector Word Config.numScalars) (w : Word) :
    (v.set d w)[k] = v[k] :=
  Vector.getElem_set_ne d.isLt k.isLt fun e => h (Fin.ext e.symm)

end Sys2Proof.Machine
end

section
/-! PROOFS. The statements of the family 40_scalar_modular. -/

namespace Sys2Proof.Machine

/-- Settles O28: what the two commands can leave is the state with another `STATUS`, with or without another `S[d]`. -/
theorem scalarCommandFrame : Obligations.ScalarCommandFrame := by
  intro i d a s t hi h
  obtain ⟨e, c, rfl | ⟨w, rfl⟩⟩ := exec_scalar_shape hi h
  · exact ⟨rfl, rfl, rfl, fun _ _ => rfl, rfl, rfl⟩
  · exact ⟨rfl, rfl, rfl, fun k hk => scalars_set_ne hk _ w, rfl, rfl⟩

/-- Settles O36: the two branches of `modInverse_cases`, and at most one inverse lies in `[0, n)`. -/
theorem modInverseIsTheUniqueInverse : Obligations.ModInverseIsTheUniqueInverse := by
  intro a n hn
  simp only [reduce_mul_eq_one_iff hn]
  rcases modInverse_cases hn a with ⟨hg, hm⟩ | ⟨hg, b, hm, hb0, hbn, hb⟩
  · exact ⟨fun _ => hm, fun h => absurd h hg⟩
  · exact ⟨fun h => absurd hg h, fun _ => ⟨b, hm, hb0, hbn, hb, hb.symm.dvd, fun c hc0 hcn hc =>
      inverse_unique hc0 hcn hb0 hbn hc hb⟩⟩

/-- Settles O37: the loop's invariants at its end; the algorithm and `modInverse` then test the same number. -/
theorem euclideanAlgorithmComputesModInverse : Obligations.EuclideanAlgorithmComputesModInverse := by
  intro a n hn
  obtain ⟨hgcd, hcong⟩ := egcd_spec (show 0 < n by omega) a
  exact ⟨hgcd, hcong.symm.dvd, by simp only [egcdInverse, modInverse, hgcd]⟩

/-- Settles O38: each law is a congruence on the operand or on the inverse; the table for 26 is evaluated. -/
theorem modInverseLaws : Obligations.ModInverseLaws := by
  refine ⟨fun a n b hn h => ?_, by decide, by decide⟩
  obtain ⟨hb0, hbn, hb⟩ := (modInverse_eq_some_iff hn a b).1 h
  have hpos : 0 < n := by omega
  have hba : b * a ≡ 1 [ZMOD n] := by rwa [mul_comm]
  refine ⟨(reduce_eq_one_iff hn _).2 hba, (modInverse_eq_some_iff hn b _).2 ?_, fun k =>
    (modInverse_eq_some_iff hn _ b).2 ⟨hb0, hbn, ?_⟩⟩
  · exact ⟨reduce_nonneg hpos a, reduce_lt hpos a, ((reduce_modEq hpos.le a).mul_left b).trans hba⟩
  · have hshift : a + k * n ≡ a [ZMOD n] := Int.modEq_iff_dvd.2 ⟨-k, by ring⟩
    exact (hshift.mul_right b).trans hb

/-- Settles O45, by what `MODINV` can answer. -/
theorem modinvFollowsItsRule : Obligations.ModinvFollowsItsRule := by
  intro d a s
  refine ⟨(decode_eq_command_iff_encode _ _).2 rfl, ?_⟩
  rcases execModinv_cases d a s with ⟨hn, h⟩ | ⟨hn, hg, h⟩ | ⟨hn, hg, b, _, hb0, hbn, hb, h⟩
  · exact ⟨fun _ => h, fun hn' => absurd hn (not_lt.2 hn'), fun hn' => absurd hn (not_lt.2 hn')⟩
  · exact ⟨fun hn' => absurd hn (not_le.2 hn'), fun _ _ => h, fun _ hg' => absurd hg' hg⟩
  · refine ⟨fun hn' => absurd hn (not_le.2 hn'), fun _ hg' => absurd hg hg', fun _ _ =>
      ⟨b, one_le_of_mul_modEq_one hn hb0 hb, hbn, (reduce_eq_one_iff hn _).2 hb, fun c hc0 hcn hc => ?_, h⟩⟩
    exact inverse_unique hc0 hcn hb0 hbn ((reduce_eq_one_iff hn _).1 hc) hb

/-- Settles O56: the value before is an inverse of the inverse written, and writing it back restores the register. -/
theorem modinvTwiceRestoresTheScalar : Obligations.ModinvTwiceRestoresTheScalar := by
  intro d s t h0 hlt h ht
  obtain ⟨hn, b, _, _, hb, hread, hst⟩ := execModinv_ok h ht
  have hmod : modulusOf t = modulusOf s := by rw [hst]; rfl
  have hinv : scalarOf t d * scalarOf s d ≡ 1 [ZMOD modulusOf t] := by rwa [hread, hmod, mul_comm]
  have hrun : exec (.modinv d d) t = complete .ok (setCoprime true (writeScalar d (scalarOf s d) t)) :=
    execModinv_eq_of_inverse (hmod ▸ hn) h0 (hmod ▸ hlt) hinv
  have hback : (s.scalars.set d (toWord b)).set d (toWord (scalarOf s d)) = s.scalars := by
    simp [scalarOf, toWord_s32]
  rw [hrun, hst]
  simp [complete_eq, setCoprime, writeScalar, hback, OutcomeCode.code]

/-- Settles O33: `reduce` is the remainder, and a residue class has one member in `[0, n)`. -/
theorem reduceIsTheUniqueResidue : Obligations.ReduceIsTheUniqueResidue := by
  intro x n hn
  have hpos : 0 < n := by omega
  have h0 := reduce_nonneg hpos x
  have h1 := reduce_lt hpos x
  have hx := reduce_modEq hpos.le x
  refine ⟨?_, h0, h1, hx.symm.dvd, fun r hr0 hrn hr => ?_⟩
  · rw [sub_mul_floor_eq_emod hpos.le, reduce_eq_emod hpos.le]
  · have hrx : r ≡ x [ZMOD n] := (Int.modEq_iff_dvd.2 hr).symm
    exact eq_of_range_of_modEq hr0 hrn h0 h1 (hrx.trans hx.symm)

/-- Settles O34: each law of sums, products and negation is a congruence between the operands of `reduce`. -/
theorem reduceLaws : Obligations.ReduceLaws := by
  intro x y n hn
  have hpos : 0 < n := by omega
  have hx := (reduce_modEq hpos.le x).symm
  have hy := (reduce_modEq hpos.le y).symm
  have hneg : -x ≡ n - reduce x n [ZMOD n] := by
    calc -x = 0 - x := (zero_sub x).symm
      _ ≡ n - reduce x n [ZMOD n] := (Int.modEq_iff_dvd.2 (by simp)).sub hx
  simp only [reduce_eq_reduce_iff hpos.le]
  exact ⟨hx.symm, hx.add hy, hx.mul hy, hneg, reduce_eq_self_iff hpos x⟩

/-- Settles O35: the library's greatest common divisor, positive because the operands are not both 0. -/
theorem gcdIsTheGreatestCommonDivisor : Obligations.GcdIsTheGreatestCommonDivisor := by
  intro a b ha hb hab
  have hpos : 0 < gcdOf a b := Int.natCast_pos.2 (Int.gcd_pos_iff.2 (not_and_or.1 hab))
  refine ⟨⟨hpos, Int.gcd_dvd_left _ _, Int.gcd_dvd_right _ _, fun c hca hcb =>
    Int.le_of_dvd hpos (Int.dvd_coe_gcd hca hcb)⟩, ?_, ?_, ?_, fun _ => ?_⟩
  · simp [gcdOf, abs_of_nonneg hb]
  · simp [gcdOf, abs_of_nonneg ha]
  · rw [gcdOf, gcdOf, Int.gcd_comm]
  · rw [sub_mul_floor_eq_emod hb, gcdOf, gcdOf, Int.gcd_comm b, Int.gcd_emod]

end Sys2Proof.Machine
end

section
/-! PROOFS. Shared rules of the family 41_matrix_unary: the matrix functions in the library's terms, over the integers
and modulo `n`, and what writing a matrix register leaves. -/

namespace Sys2Proof.Machine

/-! ## Over the integers -/

theorem toMatrix_eq_iff (m : Nat) (X Y : IntMatrix) :
    toMatrix m X = toMatrix m Y ↔ ∀ i < m, ∀ j < m, X i j = Y i j :=
  ⟨fun h i hi j hj => congrFun (congrFun h ⟨i, hi⟩) ⟨j, hj⟩, fun h => by ext i j; exact h i i.isLt j j.isLt⟩

/-- `det` is the library's expansion along row 0, at every level of its recursion (R58). -/
theorem det_eq_det_toMatrix : ∀ (m : Nat) (X : IntMatrix), det m X = (toMatrix m X).det
  | 0, X => by rw [det, Matrix.det_isEmpty]
  | 1, X => by rw [det, Matrix.det_fin_one]; rfl
  | m + 2, X => by
    have hminor (j : Fin (m + 2)) :
        det (m + 1) (minor X 0 j) = ((toMatrix (m + 2) X).submatrix Fin.succ j.succAbove).det := by
      rw [det_eq_det_toMatrix (m + 1), ← Fin.succAbove_zero]
      exact congrArg Matrix.det (toMatrix_minor (m + 1) X 0 j)
    rw [det, sumTo_eq_sum_fin, Matrix.det_succ_row_zero]
    simp only [signOf_eq_pow, hminor, toMatrix_apply, Fin.val_zero]

/-- The transposed cofactors are the library's adjugate (R59, R60). -/
theorem toMatrix_adj (m : Nat) (X : IntMatrix) : toMatrix m (adj m X) = (toMatrix m X).adjugate := by
  cases m with
  | zero => exact Subsingleton.elim _ _
  | succ k =>
    ext i j
    rw [Matrix.adjugate_fin_succ_eq_det_submatrix, ← toMatrix_minor, ← det_eq_det_toMatrix, ← signOf_eq_pow]
    rfl

theorem toMatrix_sum_mul (m : Nat) (A B : IntMatrix) :
    toMatrix m (fun i j => ∑ k ∈ Finset.range m, A i k * B k j) = toMatrix m A * toMatrix m B := by
  ext i j
  simp [Matrix.mul_apply, Finset.sum_range]

/-- The matrix `c · I`. -/
def scalarMatrix (c : Int) : IntMatrix := fun i j => if i = j then c else 0

theorem toMatrix_scalarMatrix (m : Nat) (c : Int) : toMatrix m (scalarMatrix c) = c • 1 := by
  ext i j
  simp [scalarMatrix, Matrix.one_apply, Fin.ext_iff]

/-- A product of two matrices is `c · I`, said on the entries. -/
theorem toMatrix_mul_eq_smul_one_iff (m : Nat) (A B : IntMatrix) (c : Int) :
    toMatrix m A * toMatrix m B = c • 1 ↔ ∀ i < m, ∀ j < m,
      (∑ k ∈ Finset.range m, A i k * B k j) = if i = j then c else 0 := by
  rw [← toMatrix_sum_mul, ← toMatrix_scalarMatrix, toMatrix_eq_iff]
  rfl

/-! ## Modulo `n` -/

/-- The order-`m` part of a matrix value as a library matrix of residues mod `n`. -/
def modMatrix (n : Int) (m : Nat) (X : IntMatrix) : Matrix (Fin m) (Fin m) (ZMod n.natAbs) :=
  (Int.castRingHom _).mapMatrix (toMatrix m X)

theorem intCast_zmod_natAbs_eq_iff (n a b : Int) : (a : ZMod n.natAbs) = b ↔ a ≡ b [ZMOD n] := by
  rw [ZMod.intCast_eq_intCast_iff, Int.natCast_natAbs, Int.modEq_iff_dvd, Int.modEq_iff_dvd, abs_dvd]

theorem modMatrix_eq_iff (n : Int) (m : Nat) (X Y : IntMatrix) :
    modMatrix n m X = modMatrix n m Y ↔ ∀ i < m, ∀ j < m, X i j ≡ Y i j [ZMOD n] := by
  simp only [← intCast_zmod_natAbs_eq_iff]
  exact ⟨fun h i hi j hj => congrFun (congrFun h ⟨i, hi⟩) ⟨j, hj⟩, fun h => by ext i j; exact h i i.isLt j j.isLt⟩

theorem modMatrix_reduce {n : Int} (hn : 0 ≤ n) (m : Nat) (X : IntMatrix) :
    modMatrix n m (fun i j => reduce (X i j) n) = modMatrix n m X :=
  (modMatrix_eq_iff n m _ _).2 fun i _ j _ => reduce_modEq hn (X i j)

theorem modMatrix_sum_mul (n : Int) (m : Nat) (A B : IntMatrix) :
    modMatrix n m (fun i j => ∑ k ∈ Finset.range m, A i k * B k j) = modMatrix n m A * modMatrix n m B := by
  rw [modMatrix, toMatrix_sum_mul, map_mul]; rfl

theorem modMatrix_productMod {n : Int} (hn : 0 ≤ n) (m : Nat) (A B : IntMatrix) :
    modMatrix n m (productMod m A B n) = modMatrix n m A * modMatrix n m B := by
  unfold productMod
  simp only [modMatrix_reduce hn, sumTo_eq_sum, modMatrix_sum_mul]

theorem modMatrix_scalarMatrix (n : Int) (m : Nat) (c : Int) :
    modMatrix n m (scalarMatrix c) = (c : ZMod n.natAbs) • 1 := by
  ext i j
  simp [modMatrix, scalarMatrix, Matrix.one_apply, Fin.ext_iff]

theorem det_modMatrix (n : Int) (m : Nat) (X : IntMatrix) :
    (modMatrix n m X).det = (det m X : ZMod n.natAbs) := by
  rw [modMatrix, ← RingHom.map_det, ← det_eq_det_toMatrix]; rfl

theorem modMatrix_adj (n : Int) (m : Nat) (X : IntMatrix) :
    modMatrix n m (adj m X) = (modMatrix n m X).adjugate := by
  rw [modMatrix, toMatrix_adj, RingHom.map_adjugate]; rfl

/-- A product of two matrices is `c · I` mod `n`, said on the entries. -/
theorem modMatrix_mul_eq_smul_one_iff (n : Int) (m : Nat) (A B : IntMatrix) (c : Int) :
    modMatrix n m A * modMatrix n m B = (c : ZMod n.natAbs) • 1 ↔ ∀ i < m, ∀ j < m,
      n ∣ (∑ k ∈ Finset.range m, A i k * B k j) - if i = j then c else 0 := by
  rw [← modMatrix_sum_mul, ← modMatrix_scalarMatrix, modMatrix_eq_iff]
  simp only [Int.modEq_comm (a := Finset.sum _ _), Int.modEq_iff_dvd]
  rfl

/-- `B` is inverse to `A` mod `n` when the reduced product is the identity. -/
theorem productMod_eq_one_iff {n : Int} (hn : 2 ≤ n) (m : Nat) (A B : IntMatrix) :
    (∀ i < m, ∀ j < m, productMod m A B n i j = if i = j then 1 else 0) ↔ modMatrix n m A * modMatrix n m B = 1 := by
  have hone (i j : Nat) : (if i = j then (1 : Int) else 0) = reduce (scalarMatrix 1 i j) n := by
    rw [scalarMatrix]
    exact (reduce_of_range (by split <;> omega) (by split <;> omega)).symm
  have hscalar : modMatrix n m (scalarMatrix 1) = 1 := by simp [modMatrix_scalarMatrix]
  rw [← modMatrix_sum_mul, ← hscalar, modMatrix_eq_iff]
  simp only [hone, productMod, sumTo_eq_sum, reduce_eq_reduce_iff (show 0 ≤ n by omega)]

/-- The reduced adjugate times an inverse of the determinant is an inverse of the matrix (R62). -/
theorem modMatrix_mul_inverse {n b : Int} (hn : 0 ≤ n) {m : Nat} {X : IntMatrix} (hb : det m X * b ≡ 1 [ZMOD n]) :
    modMatrix n m X * modMatrix n m (fun i j => reduce (adj m X i j * b) n) = 1 := by
  have hsmul : modMatrix n m (fun i j => adj m X i j * b) = (b : ZMod n.natAbs) • (modMatrix n m X).adjugate := by
    rw [← modMatrix_adj]
    ext i j
    simp [modMatrix, mul_comm]
  have hdet : (b : ZMod n.natAbs) * (det m X : ZMod n.natAbs) = 1 := by
    rw [mul_comm]; exact_mod_cast (intCast_zmod_natAbs_eq_iff n _ _).2 hb
  rw [modMatrix_reduce hn, hsmul, Matrix.mul_smul, Matrix.mul_adjugate, det_modMatrix, smul_smul, hdet, one_smul]

/-- The determinants of inverse matrices are inverse to each other. -/
theorem det_mul_det_modEq_one {n : Int} {m : Nat} {X Y : IntMatrix} (h : modMatrix n m X * modMatrix n m Y = 1) :
    det m X * det m Y ≡ 1 [ZMOD n] := by
  have hdet := congrArg Matrix.det h
  rw [Matrix.det_mul, det_modMatrix, det_modMatrix, Matrix.det_one] at hdet
  exact (intCast_zmod_natAbs_eq_iff n _ _).1 (by exact_mod_cast hdet)

/-- Two inverses of one matrix with entries in `[0, n)` are equal. -/
theorem matrix_inverse_unique {n : Int} {m : Nat} {X Y Z : IntMatrix}
    (hY : ∀ i < m, ∀ j < m, 0 ≤ Y i j ∧ Y i j < n) (hZ : ∀ i < m, ∀ j < m, 0 ≤ Z i j ∧ Z i j < n)
    (hXY : modMatrix n m X * modMatrix n m Y = 1) (hXZ : modMatrix n m X * modMatrix n m Z = 1) :
    ∀ i < m, ∀ j < m, Z i j = Y i j := by
  have hZY := left_inv_eq_right_inv (mul_eq_one_comm.1 hXZ) hXY
  intro i hi j hj
  obtain ⟨hY0, hYn⟩ := hY i hi j hj
  obtain ⟨hZ0, hZn⟩ := hZ i hi j hj
  exact eq_of_range_of_modEq hZ0 hZn hY0 hYn ((modMatrix_eq_iff n m Z Y).1 hZY i hi j hj)

theorem gcd_reduce {n : Int} (hn : 0 ≤ n) (a : Int) : gcdOf (reduce a n) n = gcdOf a n := by
  rw [reduce_eq_emod hn, gcdOf, gcdOf, Int.gcd_emod]

/-- A matrix has an inverse mod `n` exactly when its determinant is coprime to `n` (R61). -/
theorem gcd_det_eq_one_iff {n : Int} (hn : 2 ≤ n) (m : Nat) (X : IntMatrix) :
    gcdOf (reduce (det m X) n) n = 1 ↔ ∃ Y, modMatrix n m X * modMatrix n m Y = 1 := by
  constructor
  · intro hg
    rcases inverseMod_cases hn m X with ⟨hg', _⟩ | ⟨_, b, _, _, _, hb, _⟩
    · exact absurd hg hg'
    · exact ⟨_, modMatrix_mul_inverse (by omega) hb⟩
  · rintro ⟨Y, hY⟩
    rw [gcd_reduce (by omega)]
    exact gcd_eq_one_of_mul_modEq_one (det_mul_det_modEq_one hY)

/-! ## Writing a matrix register -/

theorem MatrixReg.withValue_leftoverKept (m : Nat) (Y : IntMatrix) (r : MatrixReg) :
    MatrixLeftoverKept r (r.withValue m Y) m := fun f hf => by
  rw [MatrixReg.withValue_d, if_neg (by omega)]

theorem MatrixReg.withValue_congr {m : Nat} {Y Z : IntMatrix} (h : ∀ i < m, ∀ j < m, Y i j = Z i j) (r : MatrixReg) :
    r.withValue m Y = r.withValue m Z := by
  refine MatrixReg.eq_of_words rfl fun f => ?_
  rw [MatrixReg.withValue_d, MatrixReg.withValue_d]
  refine if_ctx_congr Iff.rfl (fun hf => ?_) fun _ => rfl
  rw [h _ (Nat.div_lt_of_lt_mul hf) _ (Nat.mod_lt _ (Nat.pos_of_mul_pos_left (Nat.zero_lt_of_lt hf)))]

/-- Of two values of one order written one after the other the second stays. -/
theorem MatrixReg.withValue_withValue (m : Nat) (Y Z : IntMatrix) (r : MatrixReg) :
    (r.withValue m Y).withValue m Z = r.withValue m Z := by
  refine MatrixReg.eq_of_words rfl fun f => ?_
  simp only [MatrixReg.withValue_d]
  split <;> rfl

/-- Writing the value a register holds changes none of its words. -/
theorem MatrixReg.withValue_matrixValue (r : MatrixReg) :
    r.withValue (u32 r.ord) (matrixValue (u32 r.ord) r) = r := by
  refine MatrixReg.eq_of_words (by simp [MatrixReg.withValue_ord, toWord, u32]) fun f => ?_
  rw [MatrixReg.withValue_d, matrixValue, Nat.div_add_mod', matrixWord_of_lt _ f.isLt, toWord_s32]
  exact ite_self _

theorem writeMatrix_congr {m : Nat} {Y Z : IntMatrix} (h : ∀ i < m, ∀ j < m, Y i j = Z i j) (d : RegNum) (s : State) :
    writeMatrix d m Y s = writeMatrix d m Z s := by
  rw [writeMatrix, writeMatrix, MatrixReg.withValue_congr h]

/-- A matrix written in place is undone by writing the matrix that was there before. -/
theorem writeMatrix_restores (d : RegNum) (Y : IntMatrix) (s : State) (e : BitVec 4) (c : Bool) :
    writeMatrix d (ordOf s d) (matOf s d) { writeMatrix d (ordOf s d) Y s with err := e, cp := c } =
      { s with err := e, cp := c } := by
  have hself : s.matrices[d].withValue (ordOf s d) (matOf s d) = s.matrices[d] :=
    MatrixReg.withValue_matrixValue s.matrices[d]
  rw [writeMatrix]
  simp only [writeMatrix_matrices_self, MatrixReg.withValue_withValue, hself]
  simp [writeMatrix]

/-- A register written with reduced entries holds them, and its leftover words stay. -/
theorem withValue_reduce_holds {s : State} (hn : 2 ≤ modulusOf s) {m : Nat} (hm : m ≤ 5) (Z : IntMatrix)
    (r : MatrixReg) :
    HoldsMatrix (r.withValue m fun i j => reduce (Z i j) (modulusOf s)) m
      (fun i j => reduce (Z i j) (modulusOf s)) ∧
    MatrixLeftoverKept r (r.withValue m fun i j => reduce (Z i j) (modulusOf s)) m := by
  obtain ⟨hord, hentry, _⟩ := MatrixReg.withValue_holds r hm fun i _ j _ => s32_toWord_reduce hn (Z i j)
  exact ⟨⟨hord, hentry⟩, MatrixReg.withValue_leftoverKept _ _ _⟩

/-- A destination written with reduced entries reads back with the order and the residues written. -/
theorem modMatrix_of_writeMatrix {s t : State} {d : RegNum} {m : Nat} {Z : IntMatrix}
    (hn : 2 ≤ modulusOf s) (hm : m ≤ 5)
    (ht : t.matrices = (writeMatrix d m (fun i j => reduce (Z i j) (modulusOf s)) s).matrices) :
    ordOf t d = m ∧ modMatrix (modulusOf s) m (matOf t d) =
      modMatrix (modulusOf s) m (fun i j => reduce (Z i j) (modulusOf s)) := by
  obtain ⟨hord, hentry⟩ := matOf_of_writeMatrix ht hm fun i _ j _ => s32_toWord_reduce hn (Z i j)
  exact ⟨hord, (modMatrix_eq_iff _ m _ _).2 fun i hi j hj => by rw [hentry i hi j hj]⟩

end Sys2Proof.Machine
end

section
/-! PROOFS. Shared rules of the family 41_matrix_unary: what the matrix commands leave of the state, and the residues
they write. -/

namespace Sys2Proof.Machine

/-- A command with a matrix destination changes `STATUS`, `CP` by `MINV` alone, and at most the register `M[d]`, to
which it writes a value of the first source's order (R66, R67, R70). -/
theorem exec_matrix_shape {i : Instr} {d a b : RegNum} {s t : State}
    (hi : i = .madj d a ∨ i = .minv d a ∨ i = .mmul d a b) (h : exec i s = .next t) :
    ∃ e c, (i ≠ .minv d a → c = s.cp) ∧ (t = { s with err := e, cp := c } ∨
      ∃ Y, t = { writeMatrix d (ordOf s a) Y s with err := e, cp := c }) := by
  rcases hi with rfl | rfl | rfl
  · rcases execMadj_cases d a s with ⟨_, h'⟩ | ⟨_, _, h'⟩ | ⟨_, _, h'⟩ <;> cases h'.symm.trans h
    iterate 2 · exact ⟨_, _, fun _ => rfl, .inl rfl⟩
    · exact ⟨_, _, fun _ => rfl, .inr ⟨_, rfl⟩⟩
  · rcases execMinv_cases d a s with ⟨_, h'⟩ | ⟨_, _, h'⟩ | ⟨_, _, _, h'⟩ | ⟨_, _, _, b, _, _, _, _, h'⟩ <;>
      cases h'.symm.trans h
    iterate 3 · exact ⟨_, _, fun hne => absurd rfl hne, .inl rfl⟩
    · exact ⟨_, _, fun hne => absurd rfl hne, .inr ⟨_, rfl⟩⟩
  · rcases execMmul_cases d a b s with ⟨_, h'⟩ | ⟨_, _, h'⟩ | ⟨_, _, _, h'⟩ | ⟨_, _, _, h'⟩ <;>
      cases h'.symm.trans h
    iterate 3 · exact ⟨_, _, fun _ => rfl, .inl rfl⟩
    · exact ⟨_, _, fun _ => rfl, .inr ⟨_, rfl⟩⟩

/-- On `OK`, `MADJ` writes the adjugate's residues (R66). -/
theorem execMadj_residues {d a : RegNum} {s t : State} (h : execMadj d a s = .next t) (ht : t.err = 0#4) :
    ordOf t d = ordOf s a ∧ modMatrix (modulusOf s) (ordOf s a) (matOf t d) =
      (modMatrix (modulusOf s) (ordOf s a) (matOf s a)).adjugate := by
  obtain ⟨hn, ⟨_, hm⟩, rfl⟩ := execMadj_ok h ht
  rw [← modMatrix_adj, ← modMatrix_reduce (by omega) _ (adj _ _)]
  exact modMatrix_of_writeMatrix hn hm rfl

/-- On `OK`, `MINV` writes an inverse of the source (R67). -/
theorem execMinv_residues {d a : RegNum} {s t : State} (h : execMinv d a s = .next t) (ht : t.err = 0#4) :
    ordOf t d = ordOf s a ∧ modMatrix (modulusOf s) (ordOf s a) (matOf s a) *
      modMatrix (modulusOf s) (ordOf s a) (matOf t d) = 1 := by
  obtain ⟨hn, ⟨_, hm⟩, b, _, _, hb, rfl⟩ := execMinv_ok h ht
  rw [← modMatrix_mul_inverse (by omega) hb]
  exact (modMatrix_of_writeMatrix hn hm rfl).imp_right (congrArg _)

/-- On `OK`, `MMUL` writes the product's residues (R70). -/
theorem execMmul_residues {d a b : RegNum} {s t : State} (h : execMmul d a b s = .next t) (ht : t.err = 0#4) :
    ordOf t d = ordOf s a ∧ modMatrix (modulusOf s) (ordOf s a) (matOf t d) =
      modMatrix (modulusOf s) (ordOf s a) (matOf s a) * modMatrix (modulusOf s) (ordOf s a) (matOf s b) := by
  obtain ⟨hn, ⟨_, hm⟩, _, rfl⟩ := execMmul_ok h ht
  rw [← modMatrix_productMod (by omega)]
  exact modMatrix_of_writeMatrix hn hm rfl

/-- `MADJ` writes any matrix with entries in `[0, n)` that has the adjugate's residues, there being only one. -/
theorem execMadj_eq_of_residues {d a : RegNum} {s : State} {Z : IntMatrix} (hn : 2 ≤ modulusOf s)
    (hm : 2 ≤ ordOf s a ∧ ordOf s a ≤ 5)
    (hrange : ∀ i < ordOf s a, ∀ j < ordOf s a, 0 ≤ Z i j ∧ Z i j < modulusOf s)
    (hZ : modMatrix (modulusOf s) (ordOf s a) Z = (modMatrix (modulusOf s) (ordOf s a) (matOf s a)).adjugate) :
    execMadj d a s = complete .ok (writeMatrix d (ordOf s a) Z s) := by
  rcases execMadj_cases d a s with ⟨hn', _⟩ | ⟨_, hm', _⟩ | ⟨_, _, h⟩
  · omega
  · exact absurd hm hm'
  rw [← modMatrix_adj, modMatrix_eq_iff] at hZ
  rw [h, writeMatrix_congr fun i hi j hj => ?_]
  rw [(reduce_eq_reduce_iff (by omega) _ _).2 (hZ i hi j hj).symm]
  exact reduce_of_range (hrange i hi j hj).1 (hrange i hi j hj).2

/-- `MINV` writes any inverse of its operand with entries in `[0, n)`, there being only one. -/
theorem execMinv_eq_of_inverse {d a : RegNum} {s : State} {Z : IntMatrix} (hn : 2 ≤ modulusOf s)
    (hm : 2 ≤ ordOf s a ∧ ordOf s a ≤ 5)
    (hrange : ∀ i < ordOf s a, ∀ j < ordOf s a, 0 ≤ Z i j ∧ Z i j < modulusOf s)
    (hZ : modMatrix (modulusOf s) (ordOf s a) (matOf s a) * modMatrix (modulusOf s) (ordOf s a) Z = 1) :
    execMinv d a s = complete .ok (setCoprime true (writeMatrix d (ordOf s a) Z s)) := by
  rcases execMinv_cases d a s with ⟨hn', _⟩ | ⟨_, hm', _⟩ | ⟨_, _, hg, _⟩ | ⟨_, _, _, b, _, _, _, hb, h⟩
  · omega
  · exact absurd hm hm'
  · exact absurd ((gcd_det_eq_one_iff hn _ _).2 ⟨Z, hZ⟩) hg
  rw [h, writeMatrix_congr (matrix_inverse_unique hrange (fun i _ j _ => reduce_mem_range hn _) hZ
    (modMatrix_mul_inverse (by omega) hb))]

/-- `MMUL` of two inverse matrices ends `OK` and leaves the identity. -/
theorem execMmul_of_inverse {e a b : RegNum} {s : State} (hn : 2 ≤ modulusOf s) (hm : 2 ≤ ordOf s a ∧ ordOf s a ≤ 5)
    (hb : ordOf s b = ordOf s a)
    (hinv : modMatrix (modulusOf s) (ordOf s a) (matOf s a) * modMatrix (modulusOf s) (ordOf s a) (matOf s b) = 1) :
    ∃ u, execMmul e a b s = .next u ∧ u.err = 0#4 ∧
      HoldsMatrix u.matrices[e] (ordOf s a) (fun i j => if i = j then 1 else 0) := by
  rcases execMmul_cases e a b s with ⟨hn', _⟩ | ⟨_, hm', _⟩ | ⟨_, _, hb', _⟩ | ⟨_, _, _, h⟩
  · omega
  · exact absurd hm hm'
  · exact absurd hb hb'
  refine ⟨_, h, rfl, ?_⟩
  rw [writeMatrix_matrices_self e (ordOf s a) _ s]
  obtain ⟨⟨hord, hentry⟩, _⟩ := withValue_reduce_holds hn hm.2 _ s.matrices[e]
  exact ⟨hord, fun i hi j hj => (hentry i hi j hj).trans ((productMod_eq_one_iff hn _ _ _).2 hinv i hi j hj)⟩

end Sys2Proof.Machine
end

section
/-! PROOFS. The statements of the family 41_matrix_unary. -/

namespace Sys2Proof.Machine

/-- Settles O40: `det` follows the library's expansion along row 0. -/
theorem detIsTheDeterminant : Obligations.DetIsTheDeterminant := det_eq_det_toMatrix

/-- Settles O41: the library's adjugate has the same signed minors, transposed. -/
theorem adjIsTheAdjugate : Obligations.AdjIsTheAdjugate := fun m X i j _ =>
  congrFun (congrFun (toMatrix_adj m X) i) j

/-- Settles O42: the products are the library's identities for the adjugate, read entry by entry. -/
theorem adjugateTimesMatrixIsDeterminant : Obligations.AdjugateTimesMatrixIsDeterminant := by
  refine ⟨fun m X _ i hi j hj => ⟨rfl, ?_, ?_, ?_⟩, fun X => ?_⟩
  · rw [adj, cof, signOf_eq_pow, add_comm j]
  · refine (toMatrix_mul_eq_smul_one_iff m X (adj m X) _).1 ?_ i hi j hj
    rw [toMatrix_adj, Matrix.mul_adjugate, det_eq_det_toMatrix]
  · refine (toMatrix_mul_eq_smul_one_iff m (adj m X) X _).1 ?_ i hi j hj
    rw [toMatrix_adj, Matrix.adjugate_mul, det_eq_det_toMatrix]
  · simp [adj, cof, signOf, det, minor]

/-- Settles O43: the reduced adjugate times `dInv` is an inverse, and inverses with entries in `[0, n)` are equal. -/
theorem inverseModIsTheUniqueInverse : Obligations.InverseModIsTheUniqueInverse := by
  intro m X n _ hn
  rcases inverseMod_cases hn m X with ⟨hg, h⟩ | ⟨hg, b, hb, _, _, hdet, h⟩
  · exact ⟨fun _ => h, fun hg' => absurd hg' hg⟩
  have hinv := modMatrix_mul_inverse (by omega) hdet
  have hrange (x : Int) : 0 ≤ reduce x n ∧ reduce x n < n := ⟨reduce_nonneg (by omega) x, reduce_lt (by omega) x⟩
  refine ⟨fun hg' => absurd hg hg', fun _ => ⟨b, _, hb, h, fun i hi j hj => ?_, fun Z hZ => ?_⟩⟩
  · exact ⟨rfl, (hrange _).1, (hrange _).2, (productMod_eq_one_iff hn m _ _).2 hinv i hi j hj,
      (productMod_eq_one_iff hn m _ _).2 (mul_eq_one_comm.1 hinv) i hi j hj⟩
  · refine matrix_inverse_unique (fun i _ j _ => hrange _) (fun i hi j hj => ?_) hinv
      ((productMod_eq_one_iff hn m X Z).1 fun i hi j hj => (hZ i hi j hj).2.2)
    exact ⟨(hZ i hi j hj).1, (hZ i hi j hj).2.1⟩

/-- Settles O39: the second equation of `det`, with the sum and the signs in the library's terms. -/
theorem detIsFirstRowExpansion : Obligations.DetIsFirstRowExpansion := by
  refine ⟨fun _ => rfl, fun m X hm => ?_, fun X => ?_⟩
  · obtain ⟨k, rfl⟩ := Nat.exists_eq_add_of_le' hm
    simp only [det, sumTo_eq_sum, signOf_eq_pow]
    rfl
  · rw [det_eq_det_toMatrix, Matrix.det_fin_two]
    rfl

/-- Settles O29: what the three commands can leave is the state with another `STATUS`, with or without a value written
to `M[d]`. -/
theorem matrixCommandFrame : Obligations.MatrixCommandFrame := by
  intro i d a b s t hi h
  obtain ⟨e, c, hc, rfl | ⟨Y, rfl⟩⟩ := exec_matrix_shape hi h
  · exact ⟨rfl, rfl, rfl, fun _ _ => rfl, fun _ _ => rfl, hc, rfl, rfl⟩
  · refine ⟨rfl, rfl, rfl, fun k hk => matrices_of_writeMatrix_ne hk rfl, ?_, hc, rfl, rfl⟩
    rw [writeMatrix_matrices_self d (ordOf s a) Y s]
    exact MatrixReg.withValue_leftoverKept _ Y _

/-- Settles O46, by what `MDET` can answer. -/
theorem mdetFollowsItsRule : Obligations.MdetFollowsItsRule := by
  intro d a s
  refine ⟨(decode_eq_command_iff_encode _ _).2 rfl, ?_⟩
  rcases execMdet_cases d a s with ⟨hn, h⟩ | ⟨hn, hm, h⟩ | ⟨hn, hm, h⟩
  · exact ⟨fun _ => h, fun hn' => absurd hn (not_lt.2 hn'), fun hn' => absurd hn (not_lt.2 hn')⟩
  · exact ⟨fun hn' => absurd hn (not_le.2 hn'), fun _ _ => h, fun _ hlo hhi => absurd ⟨hlo, hhi⟩ hm⟩
  · have hbad : ¬(ordOf s a < 2 ∨ 5 < ordOf s a) := by omega
    exact ⟨fun hn' => absurd hn (not_le.2 hn'), fun _ hm' => absurd hm' hbad, fun _ _ _ =>
      ⟨_, rfl, (reduce_mem_range hn _).1, (reduce_mem_range hn _).2, h⟩⟩

/-- Settles O47, by what `MADJ` can answer. -/
theorem madjFollowsItsRule : Obligations.MadjFollowsItsRule := by
  intro d a s
  refine ⟨(decode_eq_command_iff_encode _ _).2 rfl, ?_⟩
  rcases execMadj_cases d a s with ⟨hn, h⟩ | ⟨hn, hm, h⟩ | ⟨hn, hm, h⟩
  · exact ⟨fun _ => h, fun hn' => absurd hn (not_lt.2 hn'), fun hn' => absurd hn (not_lt.2 hn')⟩
  · exact ⟨fun hn' => absurd hn (not_le.2 hn'), fun _ _ => h, fun _ hlo hhi => absurd ⟨hlo, hhi⟩ hm⟩
  · have hbad : ¬(ordOf s a < 2 ∨ 5 < ordOf s a) := by omega
    exact ⟨fun hn' => absurd hn (not_le.2 hn'), fun _ hm' => absurd hm' hbad, fun _ _ _ =>
      ⟨_, h, withValue_reduce_holds hn hm.2 _ _⟩⟩

/-- Settles O48, by what `MINV` can answer. -/
theorem minvFollowsItsRule : Obligations.MinvFollowsItsRule := by
  intro d a s
  refine ⟨(decode_eq_command_iff_encode _ _).2 rfl, ?_⟩
  rcases execMinv_cases d a s with ⟨hn, h⟩ | ⟨hn, hm, h⟩ | ⟨hn, hm, hg, h⟩ | ⟨hn, hm, hg, b, hb, _, _, _, h⟩
  · exact ⟨fun _ => h, fun hn' => absurd hn (not_lt.2 hn'), fun hn' => absurd hn (not_lt.2 hn'),
      fun hn' => absurd hn (not_lt.2 hn')⟩
  · exact ⟨fun hn' => absurd hn (not_le.2 hn'), fun _ _ => h, fun _ hlo hhi => absurd ⟨hlo, hhi⟩ hm,
      fun _ hlo hhi => absurd ⟨hlo, hhi⟩ hm⟩
  all_goals
    have hbad : ¬(ordOf s a < 2 ∨ 5 < ordOf s a) := by omega
  · exact ⟨fun hn' => absurd hn (not_le.2 hn'), fun _ hm' => absurd hm' hbad, fun _ _ _ _ => h,
      fun _ _ _ hg' => absurd hg' hg⟩
  · exact ⟨fun hn' => absurd hn (not_le.2 hn'), fun _ hm' => absurd hm' hbad, fun _ _ _ hg' => absurd hg hg',
      fun _ _ _ _ => ⟨b, _, hb, h, withValue_reduce_holds hn hm.2 _ _⟩⟩

/-- Settles O51: what `MDET` writes, with `det` the library's and `reduce` the remainder. -/
theorem mdetWritesTheDeterminantResidue : Obligations.MdetWritesTheDeterminantResidue := by
  intro d a s t h ht
  obtain ⟨hn, _, hcp, hst⟩ := execMdet_ok h ht
  change _ = (toMatrix (ordOf s a) (matOf s a)).det % _ ∧ _ ∧ (_ ↔ IsCoprime (toMatrix (ordOf s a) (matOf s a)).det _)
  rw [← det_eq_det_toMatrix, ← reduce_eq_emod (by omega), ← gcd_eq_one_iff_isCoprime]
  refine ⟨?_, hcp, ?_⟩
  · rw [hst]; exact scalarOf_writeScalar_reduce hn d _
  · rw [hcp, isInvertibleMod, gcd_reduce (by omega), beq_iff_eq]

/-- Settles O52: the result has the adjugate's residues. -/
theorem madjTimesSourceIsDeterminant : Obligations.MadjTimesSourceIsDeterminant := by
  intro d a s t h ht i hi j hj
  obtain ⟨_, hres⟩ := execMadj_residues h ht
  refine ⟨(modMatrix_mul_eq_smul_one_iff _ _ _ (matOf t d) _).1 ?_ i hi j hj,
    (modMatrix_mul_eq_smul_one_iff _ _ (matOf t d) _ _).1 ?_ i hi j hj⟩
  · rw [hres, Matrix.mul_adjugate, det_modMatrix]
  · rw [hres, Matrix.adjugate_mul, det_modMatrix]

/-- Settles O53: `MINV` tests the determinant, which is coprime to `n` exactly when the matrix has an inverse. -/
theorem minvSucceedsExactlyOnInvertibleMatrices : Obligations.MinvSucceedsExactlyOnInvertibleMatrices := by
  intro d a s t hn hlo hhi h
  have hinv (Y : IntMatrix) := modMatrix_mul_eq_smul_one_iff (modulusOf s) (ordOf s a) (matOf s a) Y 1
  simp only [← hinv, Int.cast_one, one_smul, ← gcd_det_eq_one_iff hn]
  rcases execMinv_cases d a s with ⟨hn', _⟩ | ⟨_, hm, _⟩ | ⟨_, _, hg, h'⟩ | ⟨_, _, hg, b, _, _, _, _, h'⟩
  · omega
  · exact absurd ⟨hlo, hhi⟩ hm
  all_goals cases h'.symm.trans h
  · exact iff_of_false (by simp [OutcomeCode.code]) hg
  · exact iff_of_true rfl hg

/-- Settles O54: `MINV` leaves the source in its register and an inverse of it in the other. -/
theorem minvThenMmulGivesTheIdentity : Obligations.MinvThenMmulGivesTheIdentity := by
  intro d a e s t hne h ht
  obtain ⟨hord, hinv⟩ := execMinv_residues h ht
  obtain ⟨hn, hm, b, _, _, _, hst⟩ := execMinv_ok h ht
  have hmod : modulusOf t = modulusOf s := by rw [hst]; rfl
  have hsrc : t.matrices[a] = s.matrices[a] := matrices_of_writeMatrix_ne hne.symm (by rw [hst])
  have horda : ordOf t a = ordOf s a := by rw [ordOf, hsrc, ordOf]
  have hmata : matOf t a = matOf s a := by rw [matOf, horda, hsrc, matOf]
  rw [← hmod, ← hmata, ← horda] at hinv
  rw [← horda] at hm hord ⊢
  rw [← hmod] at hn
  obtain ⟨u, hu, huerr, huid⟩ := execMmul_of_inverse (e := e) hn hm hord hinv
  rw [← hord] at hm hinv
  obtain ⟨u', hu', huerr', huid'⟩ := execMmul_of_inverse (e := e) hn hm hord.symm (mul_eq_one_comm.1 hinv)
  exact ⟨u, u', hu, hu', huerr, huerr', huid, hord ▸ huid'⟩

/-- Settles O57: the matrix before is an inverse of the inverse written, and writing it back restores the register. -/
theorem minvTwiceRestoresTheMatrix : Obligations.MinvTwiceRestoresTheMatrix := by
  intro d s t hrange h ht
  obtain ⟨hord, hinv⟩ := execMinv_residues h ht
  obtain ⟨hn, hm, b, _, _, _, hst⟩ := execMinv_ok h ht
  have hmod : modulusOf t = modulusOf s := by rw [hst]; rfl
  rw [← hmod] at hn hrange hinv
  rw [← hord] at hm hrange hinv
  have hrun := execMinv_eq_of_inverse (d := d) hn hm hrange (mul_eq_one_comm.1 hinv)
  rw [exec, hrun, hord, hst, writeMatrix_restores]
  rfl

/-- Settles O58: at order 2 the adjugate of the adjugate is the matrix before, and writing it back restores the
register. -/
theorem madjTwiceRestoresAnOrderTwoMatrix : Obligations.MadjTwiceRestoresAnOrderTwoMatrix := by
  intro d s t h2 hrange h ht
  obtain ⟨hord, hadj⟩ := execMadj_residues h ht
  obtain ⟨hn, hm, hst⟩ := execMadj_ok h ht
  have hmod : modulusOf t = modulusOf s := by rw [hst]; rfl
  have hback : modMatrix (modulusOf s) (ordOf s d) (matOf s d) =
      (modMatrix (modulusOf s) (ordOf s d) (matOf t d)).adjugate := by
    rw [hadj, Matrix.adjugate_adjugate _ (by simp [h2])]
    simp [h2]
  rw [← hmod, ← h2] at hrange
  rw [← hmod] at hn hback
  rw [← hord] at hm hrange hback
  have hrun := execMadj_eq_of_residues (d := d) hn hm hrange hback
  rw [exec, hrun, hord, hst, writeMatrix_restores]
  rfl

/-- Settles O59: the determinant of a product is the product of the determinants, and the residues written give the
determinant's residue. -/
theorem mdetOfMmulIsTheProduct : Obligations.MdetOfMmulIsTheProduct := by
  intro c a b d s t u h ht h'
  obtain ⟨hord, hres⟩ := execMmul_residues h ht
  obtain ⟨hn, hm, _, hst⟩ := execMmul_ok h ht
  have hmod : modulusOf t = modulusOf s := by rw [hst]; rfl
  have hdet : det (ordOf s a) (matOf t c) ≡ det (ordOf s a) (matOf s a) * det (ordOf s a) (matOf s b)
      [ZMOD modulusOf s] := by
    rw [← intCast_zmod_natAbs_eq_iff, Int.cast_mul, ← det_modMatrix, ← det_modMatrix, ← det_modMatrix, hres,
      Matrix.det_mul]
  rcases execMdet_cases d c t with ⟨hn', _⟩ | ⟨_, hm', _⟩ | ⟨_, _, hu⟩
  · rw [hmod] at hn'; omega
  · rw [hord] at hm'; exact absurd hm hm'
  cases hu.symm.trans h'
  refine ⟨rfl, (scalarOf_writeScalar_reduce (hmod ▸ hn) d _).trans ?_⟩
  rw [hmod, hord]
  exact (reduce_eq_reduce_iff (by omega) _ _).2 hdet

end Sys2Proof.Machine
end

section
/-! PROOFS. Shared rules of the family 42_matrix_products: the two products as sums and modulo `n`, and what `MVMUL`
leaves of the state. -/

namespace Sys2Proof.Machine

/-! ## Equal words are equal orders and lengths -/

theorem ordOf_eq_ordOf_iff (s : State) (a b : RegNum) :
    ordOf s b = ordOf s a ↔ s.matrices[b].ord = s.matrices[a].ord := BitVec.toNat_inj

theorem lenOf_eq_ordOf_iff (s : State) (a b : RegNum) :
    lenOf s b = ordOf s a ↔ s.vectors[b].len = s.matrices[a].ord := BitVec.toNat_inj

theorem ordOf_eq_of_matrices_eq {s t : State} {k : RegNum} (h : t.matrices[k] = s.matrices[k]) :
    ordOf t k = ordOf s k := by rw [ordOf, h, ordOf]

theorem matOf_eq_of_matrices_eq {s t : State} {k : RegNum} (h : t.matrices[k] = s.matrices[k]) :
    matOf t k = matOf s k := by rw [matOf, ordOf_eq_of_matrices_eq h, h, matOf]

/-! ## The products in the library's terms -/

theorem productMod_eq_sum_emod {n : Int} (hn : 0 ≤ n) (m : Nat) (A B : IntMatrix) :
    productMod m A B n = fun i j => (∑ k ∈ Finset.range m, A i k * B k j) % n := by
  funext i j
  rw [productMod, reduce_eq_emod hn, sumTo_eq_sum]

theorem vectorProductMod_eq_sum_emod {n : Int} (hn : 0 ≤ n) (m : Nat) (A : IntMatrix) (x : IntVector) :
    vectorProductMod m A x n = fun i => (∑ k ∈ Finset.range m, A i k * x k) % n := by
  funext i
  rw [vectorProductMod, reduce_eq_emod hn, sumTo_eq_sum]

/-- The length-`m` part of a vector value as a library vector of residues mod `n`. -/
def modVector (n : Int) (m : Nat) (x : IntVector) : Fin m → ZMod n.natAbs := fun i => x i

theorem modVector_eq_iff (n : Int) (m : Nat) (x y : IntVector) :
    modVector n m x = modVector n m y ↔ ∀ i < m, x i ≡ y i [ZMOD n] := by
  simp only [← intCast_zmod_natAbs_eq_iff]
  exact ⟨fun h i hi => congrFun h ⟨i, hi⟩, fun h => funext fun i => h i i.isLt⟩

theorem modVector_vectorProductMod {n : Int} (hn : 0 ≤ n) (m : Nat) (A : IntMatrix) (x : IntVector) :
    modVector n m (vectorProductMod m A x n) = (modMatrix n m A).mulVec (modVector n m x) := by
  funext i
  have hred := (intCast_zmod_natAbs_eq_iff n _ _).2 (reduce_modEq hn (sumTo m fun k => A i k * x k))
  rw [modVector, vectorProductMod, hred, sumTo_eq_sum_fin]
  simp [Matrix.mulVec, dotProduct, modMatrix, modVector]

/-- Two vectors with entries in `[0, n)` and the same residues are equal. -/
theorem vector_eq_of_modVector_eq {n : Int} {m : Nat} {x y : IntVector} (hx : ∀ i < m, 0 ≤ x i ∧ x i < n)
    (hy : ∀ i < m, 0 ≤ y i ∧ y i < n) (h : modVector n m x = modVector n m y) : ∀ i < m, x i = y i := by
  intro i hi
  obtain ⟨hx0, hxn⟩ := hx i hi
  obtain ⟨hy0, hyn⟩ := hy i hi
  exact eq_of_range_of_modEq hx0 hxn hy0 hyn ((modVector_eq_iff n m x y).1 h i hi)

/-! ## Writing a vector register -/

theorem VectorReg.withValue_leftoverKept (m : Nat) (y : IntVector) (r : VectorReg) :
    VectorLeftoverKept r (r.withValue m y) m := fun f hf => by
  rw [VectorReg.withValue_d, if_neg (by omega)]

/-- A register written with reduced entries holds them, and its leftover words stay. -/
theorem VectorReg.withValue_reduce_holds {s : State} (hn : 2 ≤ modulusOf s) {m : Nat} (hm : m ≤ 5) (z : IntVector)
    (r : VectorReg) :
    HoldsVector (r.withValue m fun i => reduce (z i) (modulusOf s)) m (fun i => reduce (z i) (modulusOf s)) ∧
    VectorLeftoverKept r (r.withValue m fun i => reduce (z i) (modulusOf s)) m := by
  obtain ⟨hlen, hentry, hkept⟩ := VectorReg.withValue_holds r hm fun i _ => s32_toWord_reduce hn (z i)
  exact ⟨⟨hlen, hentry⟩, hkept⟩

/-- The other vector registers are as before. -/
theorem vectors_of_writeVector_ne {s t : State} {d k : RegNum} {m : Nat} {y : IntVector} (hk : k ≠ d)
    (ht : t.vectors = (writeVector d m y s).vectors) : t.vectors[k] = s.vectors[k] := by
  rw [ht]
  exact Vector.getElem_set_ne d.isLt k.isLt fun e => hk (Fin.ext e.symm)

/-! ## The outcomes of the two products -/

/-- The four cases of a product command, read as its rule writes them: modulus, order of the matrix, size of the second
operand (R75). `m` is the order and `l` the second operand's order or length. -/
theorem productOutcomes_of_cases {n : Int} {m l : Nat} {badModulus badOrder mismatch ok : Prop}
    (h : (n < 2 ∧ badModulus) ∨ (2 ≤ n ∧ ¬(2 ≤ m ∧ m ≤ 5) ∧ badOrder) ∨
      (2 ≤ n ∧ (2 ≤ m ∧ m ≤ 5) ∧ l ≠ m ∧ mismatch) ∨ (2 ≤ n ∧ (2 ≤ m ∧ m ≤ 5) ∧ l = m ∧ ok)) :
    (n < 2 → badModulus) ∧ (2 ≤ n → m < 2 ∨ 5 < m → badOrder) ∧
    (2 ≤ n → 2 ≤ m → m ≤ 5 → l ≠ m → mismatch) ∧ (2 ≤ n → 2 ≤ m → m ≤ 5 → l = m → ok) := by
  rcases h with ⟨hn, h⟩ | ⟨hn, hm, h⟩ | ⟨hn, hm, hl, h⟩ | ⟨hn, hm, hl, h⟩
  · exact ⟨fun _ => h, by omega, by omega, by omega⟩
  · exact ⟨by omega, fun _ _ => h, by omega, by omega⟩
  · exact ⟨by omega, by omega, fun _ _ _ _ => h, by omega⟩
  · exact ⟨by omega, by omega, by omega, fun _ _ _ _ => h⟩

/-! ## MVMUL on the state -/

/-- `MVMUL` changes `ERR` and at most the register `V[d]`, to which it writes a value of the matrix's order (R71). -/
theorem execMvmul_shape {d a b : RegNum} {s t : State} (h : execMvmul d a b s = .next t) :
    ∃ e, t = { s with err := e } ∨ ∃ y, t = { writeVector d (ordOf s a) y s with err := e } := by
  rcases execMvmul_cases d a b s with ⟨_, h'⟩ | ⟨_, _, h'⟩ | ⟨_, _, _, h'⟩ | ⟨_, _, _, h'⟩ <;> cases h'.symm.trans h
  iterate 3 · exact ⟨_, .inl rfl⟩
  · exact ⟨_, .inr ⟨_, rfl⟩⟩

/-- On legal operands `MVMUL` ends `OK` and writes the product's residues (R71). -/
theorem execMvmul_of_legal {d a b : RegNum} {s t : State} (hn : 2 ≤ modulusOf s)
    (hm : 2 ≤ ordOf s a ∧ ordOf s a ≤ 5) (hb : lenOf s b = ordOf s a) (h : execMvmul d a b s = .next t) :
    t.err = 0#4 ∧ lenOf t d = ordOf s a ∧ modVector (modulusOf s) (ordOf s a) (vecOf t d) =
      (modMatrix (modulusOf s) (ordOf s a) (matOf s a)).mulVec (modVector (modulusOf s) (ordOf s a) (vecOf s b)) := by
  obtain ⟨_, _, _, hok⟩ := productOutcomes_of_cases (execMvmul_cases d a b s)
  cases (hok hn hm.1 hm.2 hb).symm.trans h
  rw [← modVector_vectorProductMod (by omega)]
  obtain ⟨hlen, hentry⟩ := vecOf_of_writeVector (d := d) rfl hm.2 fun i _ => s32_toWord_reduce hn _
  exact ⟨rfl, hlen, (modVector_eq_iff _ _ _ _).2 fun i hi => hentry i hi ▸ Int.ModEq.refl _⟩

end Sys2Proof.Machine
end

section
/-! PROOFS. The statements of the family 42_matrix_products. -/

namespace Sys2Proof.Machine

/-- Settles O30: what `MVMUL` can leave is the state with another `ERR`, with or without a value written to `V[d]`. -/
theorem vectorCommandFrame : Obligations.VectorCommandFrame := by
  intro d a b s t h
  obtain ⟨e, rfl | ⟨y, rfl⟩⟩ := execMvmul_shape h
  · exact ⟨rfl, rfl, rfl, fun _ _ => rfl, fun _ _ => rfl, rfl, rfl, rfl⟩
  · refine ⟨rfl, rfl, rfl, fun k hk => vectors_of_writeVector_ne hk rfl, ?_, rfl, rfl, rfl⟩
    rw [writeVector_vectors_self d (ordOf s a) y s]
    exact VectorReg.withValue_leftoverKept _ y _

/-- Settles O49, by what `MMUL` can answer; the product is the sum's remainder. -/
theorem mmulFollowsItsRule : Obligations.MmulFollowsItsRule := by
  intro d a b s
  obtain ⟨hmodulus, horder, hmismatch, hok⟩ := productOutcomes_of_cases (execMmul_cases d a b s)
  rw [ne_eq, ordOf_eq_ordOf_iff] at hmismatch
  rw [ordOf_eq_ordOf_iff] at hok
  refine ⟨(decode_eq_command_iff_encode _ _).2 rfl, hmodulus, horder, hmismatch, fun hn hlo hhi hb =>
    ⟨_, hok hn hlo hhi hb, ?_⟩⟩
  have hn0 : 0 ≤ modulusOf s := zero_le_two.trans hn
  have hsum := productMod_eq_sum_emod hn0 (ordOf s a) (matOf s a) (matOf s b)
  exact hsum ▸ withValue_reduce_holds hn hhi _ _

/-- Settles O50, by what `MVMUL` can answer; the product is the sum's remainder. -/
theorem mvmulFollowsItsRule : Obligations.MvmulFollowsItsRule := by
  intro d a b s
  obtain ⟨hmodulus, horder, hmismatch, hok⟩ := productOutcomes_of_cases (execMvmul_cases d a b s)
  rw [ne_eq, lenOf_eq_ordOf_iff] at hmismatch
  rw [lenOf_eq_ordOf_iff] at hok
  refine ⟨(decode_eq_command_iff_encode _ _).2 rfl, hmodulus, horder, hmismatch, fun hn hlo hhi hb =>
    ⟨_, hok hn hlo hhi hb, ?_⟩⟩
  have hn0 : 0 ≤ modulusOf s := zero_le_two.trans hn
  have hsum := vectorProductMod_eq_sum_emod hn0 (ordOf s a) (matOf s a) (vecOf s b)
  exact hsum ▸ VectorReg.withValue_reduce_holds hn hhi _ _

/-- `MVMUL` by a matrix and then by an inverse of it gives the vector back: the residues are those before, and a vector
with entries in `[0, n)` is its residues. -/
theorem mvmul_then_mvmul_inverse {k i b x d : RegNum} {t u v : State} (hn : 2 ≤ modulusOf t)
    (hm : 2 ≤ ordOf t k ∧ ordOf t k ≤ 5) (hord : ordOf t i = ordOf t k) (hlen : lenOf t b = ordOf t k)
    (hrange : ∀ j < ordOf t k, 0 ≤ vecOf t b j ∧ vecOf t b j < modulusOf t)
    (hinv : modMatrix (modulusOf t) (ordOf t k) (matOf t i) * modMatrix (modulusOf t) (ordOf t k) (matOf t k) = 1)
    (henc : exec (.mvmul x k b) t = .next u) (hdec : exec (.mvmul d i x) u = .next v) :
    v.err = 0#4 ∧ HoldsVector v.vectors[d] (ordOf t k) (vecOf t b) := by
  obtain ⟨hmod, _, hmat, _⟩ := vectorCommandFrame x k b t u henc
  have hn' : modulusOf u = modulusOf t := congrArg s32 hmod
  have hsrc : u.matrices[i] = t.matrices[i] := by rw [hmat]
  have hord' : ordOf u i = ordOf t k := (ordOf_eq_of_matrices_eq hsrc).trans hord
  obtain ⟨_, hlenu, hresu⟩ := execMvmul_of_legal hn hm hlen henc
  obtain ⟨hv, hlenv, hresv⟩ := execMvmul_of_legal (hn' ▸ hn) (hord' ▸ hm) (hlenu.trans hord'.symm) hdec
  obtain ⟨_, hrangev⟩ := execMvmul_range hdec hv
  rw [hlenv, hord', hn'] at hrangev
  rw [hn', hord', matOf_eq_of_matrices_eq hsrc, hresu, Matrix.mulVec_mulVec, hinv, Matrix.one_mulVec] at hresv
  exact ⟨hv, hlenv.trans hord', vector_eq_of_modVector_eq hrangev hrange hresv⟩

/-- Settles O55: `MINV` leaves the key and the vector in their registers and an inverse of the key in the other. -/
theorem encryptThenDecryptRestoresTheBlock : Obligations.EncryptThenDecryptRestoresTheBlock := by
  intro k i b x d s t u v hik hminv ht hlen hrange henc hdec
  obtain ⟨hn, hm, _⟩ := execMinv_ok hminv ht
  obtain ⟨hord, hinv⟩ := execMinv_residues hminv ht
  obtain ⟨hmod, _, hvec, hother, _⟩ := matrixCommandFrame (.minv i k) i k k s t (.inr (.inl rfl)) hminv
  have hkey := hother k hik.symm
  have hn' : modulusOf t = modulusOf s := congrArg s32 hmod
  have hordk : ordOf t k = ordOf s k := ordOf_eq_of_matrices_eq hkey
  have hlenb : lenOf t b = lenOf s b := by rw [lenOf, hvec, lenOf]
  have hvecb : vecOf t b = vecOf s b := by rw [vecOf, hvec, vecOf]
  rw [← hordk] at hlen hord hm hrange hinv ⊢
  rw [← matOf_eq_of_matrices_eq hkey] at hinv
  rw [← hn'] at hn hrange hinv
  rw [← hvecb] at hrange ⊢
  exact mvmul_then_mvmul_inverse hn hm hord (hlenb.trans hlen) hrange (mul_eq_one_comm.1 hinv) henc hdec

end Sys2Proof.Machine
end

section
/-! PROOFS. Shared rules of the family 60_exceptions: the outcome each command ends with, what a failure leaves of the
state, that `ERR` is no input of a command, and that its result is the same in every destination. -/

namespace Sys2Proof.Machine

/-! ## The outcome of a command -/

/-- The outcome R75 gives a command: that of the first condition in its order that fails, `OK` when none does. -/
def outcome (i : Instr) (s : State) : OutcomeCode :=
  if modulusOf s < 2 then .badModulus else
  match i with
  | .modinv _ a =>
    if gcdOf (reduce (scalarOf s a) (modulusOf s)) (modulusOf s) = 1 then .ok else .notInvertible
  | .mdet _ a | .madj _ a => if 2 ≤ ordOf s a ∧ ordOf s a ≤ 5 then .ok else .badOrder
  | .minv _ a =>
    if ¬(2 ≤ ordOf s a ∧ ordOf s a ≤ 5) then .badOrder
    else if gcdOf (reduce (det (ordOf s a) (matOf s a)) (modulusOf s)) (modulusOf s) = 1 then .ok
    else .notInvertible
  | .mmul _ a b =>
    if ¬(2 ≤ ordOf s a ∧ ordOf s a ≤ 5) then .badOrder
    else if ordOf s b ≠ ordOf s a then .dimensionMismatch else .ok
  | .mvmul _ a b =>
    if ¬(2 ≤ ordOf s a ∧ ordOf s a ≤ 5) then .badOrder
    else if lenOf s b ≠ ordOf s a then .sizeMismatch else .ok

/-- The command completes with `c`, and when `c` is a failure it has changed at most `CP` before (R76, R77). -/
def EndsWith (i : Instr) (s : State) (c : OutcomeCode) : Prop :=
  ∃ u, exec i s = complete c u ∧ (c ≠ .ok → u = setCoprime (if c.code = 1#4 then false else s.cp) s)

theorem EndsWith.of_outcome {i : Instr} {s u : State} {c : OutcomeCode} (hc : outcome i s = c)
    (h : exec i s = complete c u) (hu : c ≠ .ok → u = setCoprime (if c.code = 1#4 then false else s.cp) s) :
    EndsWith i s (outcome i s) :=
  hc ▸ ⟨u, h, hu⟩

/-- Every command ends with the outcome of R75. -/
theorem exec_endsWith_outcome (i : Instr) (s : State) : EndsWith i s (outcome i s) := by
  cases i with
  | modinv d a =>
    rcases execModinv_cases d a s with ⟨hn, h⟩ | ⟨hn, hg, h⟩ | ⟨hn, hg, _, _, _, _, _, h⟩
    · exact .of_outcome (by simp [outcome, hn]) h fun _ => rfl
    · exact .of_outcome (by simp [outcome, hn.not_gt, hg]) h fun _ => rfl
    · exact .of_outcome (by simp [outcome, hn.not_gt, hg]) h (absurd rfl)
  | mdet d a =>
    rcases execMdet_cases d a s with ⟨hn, h⟩ | ⟨hn, hm, h⟩ | ⟨hn, hm, h⟩
    · exact .of_outcome (by simp [outcome, hn]) h fun _ => rfl
    · exact .of_outcome (by simp [outcome, hn.not_gt, hm]) h fun _ => rfl
    · exact .of_outcome (by simp [outcome, hn.not_gt, hm]) h (absurd rfl)
  | madj d a =>
    rcases execMadj_cases d a s with ⟨hn, h⟩ | ⟨hn, hm, h⟩ | ⟨hn, hm, h⟩
    · exact .of_outcome (by simp [outcome, hn]) h fun _ => rfl
    · exact .of_outcome (by simp [outcome, hn.not_gt, hm]) h fun _ => rfl
    · exact .of_outcome (by simp [outcome, hn.not_gt, hm]) h (absurd rfl)
  | minv d a =>
    rcases execMinv_cases d a s with ⟨hn, h⟩ | ⟨hn, hm, h⟩ | ⟨hn, hm, hg, h⟩ | ⟨hn, hm, hg, _, _, _, _, _, h⟩
    · exact .of_outcome (by simp [outcome, hn]) h fun _ => rfl
    · exact .of_outcome (by simp [outcome, hn.not_gt, hm]) h fun _ => rfl
    · exact .of_outcome (by simp [outcome, hn.not_gt, hm, hg]) h fun _ => rfl
    · exact .of_outcome (by simp [outcome, hn.not_gt, hm, hg]) h (absurd rfl)
  | mmul d a b =>
    rcases execMmul_cases d a b s with ⟨hn, h⟩ | ⟨hn, hm, h⟩ | ⟨hn, hm, hb, h⟩ | ⟨hn, hm, hb, h⟩
    · exact .of_outcome (by simp [outcome, hn]) h fun _ => rfl
    · exact .of_outcome (by simp [outcome, hn.not_gt, hm]) h fun _ => rfl
    · exact .of_outcome (by simp [outcome, hn.not_gt, hm, hb]) h fun _ => rfl
    · exact .of_outcome (by simp [outcome, hn.not_gt, hm, hb]) h (absurd rfl)
  | mvmul d a b =>
    rcases execMvmul_cases d a b s with ⟨hn, h⟩ | ⟨hn, hm, h⟩ | ⟨hn, hm, hb, h⟩ | ⟨hn, hm, hb, h⟩
    · exact .of_outcome (by simp [outcome, hn]) h fun _ => rfl
    · exact .of_outcome (by simp [outcome, hn.not_gt, hm]) h fun _ => rfl
    · exact .of_outcome (by simp [outcome, hn.not_gt, hm, hb]) h fun _ => rfl
    · exact .of_outcome (by simp [outcome, hn.not_gt, hm, hb]) h (absurd rfl)

theorem exec_err {i : Instr} {s t : State} (h : exec i s = .next t) : t.err = (outcome i s).code := by
  obtain ⟨u, hu, _⟩ := exec_endsWith_outcome i s
  cases hu.symm.trans h
  rfl

theorem exists_exec_err {i : Instr} {s : State} (c : OutcomeCode) (hc : outcome i s = c) :
    ∃ t, exec i s = .next t ∧ t.err = c.code := by
  obtain ⟨t, ht, _⟩ := exec_shape i s
  exact ⟨t, ht, hc ▸ exec_err ht⟩

/-- R74's table: the codes marked possible for a command. -/
def PossibleErr : Instr → BitVec 4 → Prop
  | .modinv _ _, e => e = 0#4 ∨ e = 1#4 ∨ e = 6#4
  | .mdet _ _, e | .madj _ _, e => e = 0#4 ∨ e = 5#4 ∨ e = 6#4
  | .minv _ _, e => e = 0#4 ∨ e = 1#4 ∨ e = 5#4 ∨ e = 6#4
  | .mmul _ _ _, e => e = 0#4 ∨ e = 3#4 ∨ e = 5#4 ∨ e = 6#4
  | .mvmul _ _ _, e => e = 0#4 ∨ e = 2#4 ∨ e = 5#4 ∨ e = 6#4

/-- Every branch of `outcome` ends in a code of its command's row. -/
theorem exec_possibleErr {i : Instr} {s t : State} (h : exec i s = .next t) : PossibleErr i t.err := by
  rw [exec_err h]
  unfold outcome
  cases i <;> dsimp only <;> split_ifs <;> simp [PossibleErr, OutcomeCode.code]

/-- Registers for every row of R74's table: modulus 26; `S0` invertible, `S1` not; `V0` of length 2, `V1` empty; `M0` of
order 2 and invertible, `M1` of order 2 and not, `M2` of no legal order. -/
def outcomeSample : State where
  modulus := 26#32
  scalars := #v[1#32, 0#32, 0#32, 0#32]
  vectors := (Vector.replicate _ VectorReg.reset).set 0 { VectorReg.reset with len := 2#32 }
  matrices := ((Vector.replicate _ MatrixReg.reset).set 0
    { ord := 2#32, d := ((Vector.replicate _ 0#32).set 0 1#32).set 3 1#32 }).set 1 { MatrixReg.reset with ord := 2#32 }
  err := 0#4
  cp := false
  pending := []
  returned := []

/-- `BAD_MODULUS` can end every command (R74). -/
theorem exists_exec_badModulus (i : Instr) :
    ∃ t, exec i { outcomeSample with modulus := 0#32 } = .next t ∧ t.err = 6#4 :=
  exists_exec_err .badModulus (if_pos (by decide))

/-! ## Failures -/

/-- A command that fails changes `STATUS` alone (R77). -/
theorem exec_failed {i : Instr} {s t : State} (h : exec i s = .next t) (ht : t.err ≠ 0#4) :
    t = { s with err := t.err, cp := if t.err = 1#4 then false else s.cp } := by
  obtain ⟨u, hu, hfail⟩ := exec_endsWith_outcome i s
  have hne : outcome i s ≠ .ok := fun hok => ht (by rw [exec_err h, hok]; rfl)
  rw [hfail hne] at hu
  cases hu.symm.trans h
  rfl

theorem exec_failed_cp {i : Instr} {s t : State} (h : exec i s = .next t) (ht : t.err ≠ 0#4) :
    t.cp = if t.err = 1#4 then false else s.cp :=
  congrArg State.cp (exec_failed h ht)

theorem executeCommand_illegal {w : Word} {why : IllegalReason} (hw : decode w = .illegal why) (s : State) :
    executeCommand w s = .next { s with err := 4#4 } := by
  rw [executeCommand, hw]
  rfl

/-! ## ERR is no input -/

/-- No command reads `STATUS.ERR`, and every command overwrites it (R25, R76). -/
theorem exec_withErr (i : Instr) (s : State) (e : BitVec 4) : exec i { s with err := e } = exec i s := by
  cases i <;> rfl

/-! ## What commands write to CP -/

/-- `CP` after a command that sets it at `OK`: `MODINV` and `MINV` (R76). -/
theorem exec_cp_of_ok_true {i : Instr} {s t : State} (h : exec i s = .next t) (hok : t.err = 0#4 → t.cp = true) :
    t.cp = if t.err = 0#4 then true else if t.err = 1#4 then false else s.cp := by
  by_cases ht : t.err = 0#4
  · rw [if_pos ht, hok ht]
  · rw [if_neg ht, exec_failed_cp h ht]

/-- `CP` after `MDET`: the coprimality test of the residue written, at `OK` (R65, R76). -/
theorem execMdet_cp {d a : RegNum} {s t : State} (h : exec (.mdet d a) s = .next t) :
    if t.err = 0#4 then (t.cp = true ↔ gcdOf (scalarOf t d) (modulusOf s) = 1) else t.cp = s.cp := by
  by_cases ht : t.err = 0#4
  · obtain ⟨hn, _, hcp, hst⟩ := execMdet_ok h ht
    have hread : scalarOf t d = reduce (det (ordOf s a) (matOf s a)) (modulusOf s) := by
      rw [hst]
      exact scalarOf_writeScalar_reduce hn d _
    rw [if_pos ht, hcp, hread, isInvertibleMod, beq_iff_eq]
  · have hne : t.err ≠ 1#4 := fun h1 => by
      simpa [h1, PossibleErr] using exec_possibleErr h
    rw [if_neg ht, exec_failed_cp h ht, if_neg hne]

/-! ## The destination -/

/-- One value written to two matrix registers is the same result in both (R22). -/
theorem MatrixReg.sameMatrix_withValue {m : Nat} (hm : m ≤ 5) (Y : IntMatrix) (r r' : MatrixReg) :
    SameMatrix (r.withValue m Y) (r'.withValue m Y) := by
  refine ⟨rfl, fun f hf => ?_⟩
  rw [MatrixReg.withValue_ord, u32_toWord_natCast (by omega)] at hf
  rw [MatrixReg.withValue_d, MatrixReg.withValue_d, if_pos hf, if_pos hf]

/-- The same for two vector registers (R23). -/
theorem VectorReg.sameVector_withValue {m : Nat} (hm : m ≤ 5) (y : IntVector) (r r' : VectorReg) :
    SameVector (r.withValue m y) (r'.withValue m y) := by
  refine ⟨rfl, fun f hf => ?_⟩
  have hlen : u32 (r.withValue m y).len = m := u32_toWord_natCast (by omega)
  rw [hlen] at hf
  rw [VectorReg.withValue_d, VectorReg.withValue_d, if_pos hf, if_pos hf]

theorem sameMatrix_of_writeMatrix {s t t' : State} {d d' : RegNum} {m : Nat} {Y : IntMatrix} (hm : m ≤ 5)
    (ht : t.matrices = (writeMatrix d m Y s).matrices) (ht' : t'.matrices = (writeMatrix d' m Y s).matrices) :
    SameMatrix t.matrices[d] t'.matrices[d'] := by
  rw [ht, ht', writeMatrix_matrices_self, writeMatrix_matrices_self]
  exact MatrixReg.sameMatrix_withValue hm Y _ _

/-- Two runs with one outcome agree when their results on `OK` do. -/
theorem err_eq_and_of_outcome_eq {i i' : Instr} {s t t' : State} {same : Prop} (h : exec i s = .next t)
    (h' : exec i' s = .next t') (ho : outcome i s = outcome i' s) (hres : t.err = 0#4 → t'.err = 0#4 → same) :
    t.err = t'.err ∧ (t.err = 0#4 → same) := by
  have he : t.err = t'.err := by rw [exec_err h, exec_err h', ho]
  exact ⟨he, fun ht => hres ht (he ▸ ht)⟩

section
variable {d d' a b : RegNum} {s t t' : State}

theorem execModinv_sameScalar (h : execModinv d a s = .next t) (h' : execModinv d' a s = .next t')
    (ht : t.err = 0#4) (ht' : t'.err = 0#4) : t.scalars[d] = t'.scalars[d'] := by
  obtain ⟨_, x, hx0, hxn, hx, _, rfl⟩ := execModinv_ok h ht
  obtain ⟨_, y, hy0, hyn, hy, _, rfl⟩ := execModinv_ok h' ht'
  simp [inverse_unique hx0 hxn hy0 hyn hx hy]

theorem execMadj_sameMatrix (h : execMadj d a s = .next t) (h' : execMadj d' a s = .next t')
    (ht : t.err = 0#4) (ht' : t'.err = 0#4) : SameMatrix t.matrices[d] t'.matrices[d'] := by
  obtain ⟨_, ⟨_, hm⟩, rfl⟩ := execMadj_ok h ht
  obtain ⟨_, _, rfl⟩ := execMadj_ok h' ht'
  exact sameMatrix_of_writeMatrix hm rfl rfl

theorem execMinv_sameMatrix (h : execMinv d a s = .next t) (h' : execMinv d' a s = .next t')
    (ht : t.err = 0#4) (ht' : t'.err = 0#4) : SameMatrix t.matrices[d] t'.matrices[d'] := by
  obtain ⟨_, ⟨_, hm⟩, x, hx0, hxn, hx, rfl⟩ := execMinv_ok h ht
  obtain ⟨_, _, y, hy0, hyn, hy, rfl⟩ := execMinv_ok h' ht'
  obtain rfl := inverse_unique hx0 hxn hy0 hyn hx hy
  exact sameMatrix_of_writeMatrix hm rfl rfl

theorem execMmul_sameMatrix (h : execMmul d a b s = .next t) (h' : execMmul d' a b s = .next t')
    (ht : t.err = 0#4) (ht' : t'.err = 0#4) : SameMatrix t.matrices[d] t'.matrices[d'] := by
  obtain ⟨_, ⟨_, hm⟩, _, rfl⟩ := execMmul_ok h ht
  obtain ⟨_, _, _, rfl⟩ := execMmul_ok h' ht'
  exact sameMatrix_of_writeMatrix hm rfl rfl

theorem execMvmul_sameVector (h : execMvmul d a b s = .next t) (h' : execMvmul d' a b s = .next t')
    (ht : t.err = 0#4) (ht' : t'.err = 0#4) : SameVector t.vectors[d] t'.vectors[d'] := by
  obtain ⟨_, ⟨_, hm⟩, _, rfl⟩ := execMvmul_ok h ht
  obtain ⟨_, _, _, rfl⟩ := execMvmul_ok h' ht'
  simp only [writeVector_vectors_self]
  exact VectorReg.sameVector_withValue hm _ _ _

end

/-! ## Steps -/

/-- Every step answers, and serves the first of the pending moves if there is one (R79, R88). -/
theorem step_answers (s : State) : ∃ t, step s = .next t ∧ t.pending = s.pending.tail := by
  cases hp : s.pending with
  | nil => exact ⟨s, step_nil hp, hp⟩
  | cons move rest =>
    obtain ⟨t, ht, hpending⟩ := serve_answers move { s with pending := rest }
    exact ⟨t, (step_cons hp).trans ht, hpending⟩

end Sys2Proof.Machine
end

section
/-! PROOFS. The statements of the family 60_exceptions. -/

namespace Sys2Proof.Machine

/-- Settles O16, by induction on the number of steps: each step answers and takes the first pending move. -/
theorem everyRunGoesOn : Obligations.EveryRunGoesOn := by
  intro k
  induction k with
  | zero => exact fun s => ⟨s, run_zero s, rfl⟩
  | succ k ih =>
    intro s
    obtain ⟨u, hu, hpending⟩ := step_answers s
    obtain ⟨t, ht, hdrop⟩ := ih u
    refine ⟨t, (run_succ hu k).trans ht, ?_⟩
    rw [hdrop, hpending, List.drop_tail]

/-- Settles O22: a written word is executed to an answer, whose status is legal. -/
theorem everyCommandCompletes : Obligations.EveryCommandCompletes := by
  intro w s
  obtain ⟨t, ht, _⟩ := executeCommand_shape w s
  exact ⟨t, ht, (executeCommand_statusLegal ht).1⟩

/-- Settles O25: a failed command changes `STATUS` alone, and an illegal word writes code 4. -/
theorem failedCommandChangesOnlyStatus : Obligations.FailedCommandChangesOnlyStatus := by
  intro w s t h hne
  cases hd : decode w with
  | command i =>
    rw [executeCommand, hd] at h
    exact exec_failed h hne
  | illegal why =>
    cases (executeCommand_illegal hd s).symm.trans h
    rfl

/-- Settles O23: the outcome of every command is the one `outcome` reads off R75's order. -/
theorem firstFailureInOrderIsReported : Obligations.FirstFailureInOrderIsReported := by
  refine ⟨fun w why s t hw h => ?_, fun i s t h => ?_⟩
  · cases (executeCommand_illegal hw s).symm.trans h
    rfl
  · have herr := exec_err h
    unfold outcome at herr
    refine ⟨fun (hn : modulusOf s < 2) => ?_, fun (hn : 2 ≤ modulusOf s) => ?_⟩
    · rw [herr, if_pos hn]
      rfl
    · rw [if_neg (not_lt.2 hn)] at herr
      cases i <;> simp only [apply_ite OutcomeCode.code, ne_eq, ordOf_eq_ordOf_iff, lenOf_eq_ordOf_iff] at herr <;>
        exact herr

/-- Settles O24: `outcome` stays in the table, and `outcomeSample` gives operands for every entry. -/
theorem outcomesOfEachCommand : Obligations.OutcomesOfEachCommand := by
  intro e
  refine ⟨⟨fun ⟨_, _, _, _, h, he⟩ => he ▸ exec_possibleErr h, ?_⟩,
    ⟨fun ⟨_, _, _, _, h, he⟩ => he ▸ exec_possibleErr h, ?_⟩,
    ⟨fun ⟨_, _, _, _, h, he⟩ => he ▸ exec_possibleErr h, ?_⟩,
    ⟨fun ⟨_, _, _, _, h, he⟩ => he ▸ exec_possibleErr h, ?_⟩,
    ⟨fun ⟨_, _, _, _, _, h, he⟩ => he ▸ exec_possibleErr h, ?_⟩,
    ⟨fun ⟨_, _, _, _, _, h, he⟩ => he ▸ exec_possibleErr h, ?_⟩, ?_, ?_⟩
  · rintro (rfl | rfl | rfl)
    · exact ⟨0, 0, outcomeSample, exists_exec_err .ok (by decide)⟩
    · exact ⟨0, 1, outcomeSample, exists_exec_err .notInvertible (by decide)⟩
    · exact ⟨0, 0, _, exists_exec_badModulus _⟩
  · rintro (rfl | rfl | rfl)
    · exact ⟨0, 0, outcomeSample, exists_exec_err .ok (by decide)⟩
    · exact ⟨0, 2, outcomeSample, exists_exec_err .badOrder (by decide)⟩
    · exact ⟨0, 0, _, exists_exec_badModulus _⟩
  · rintro (rfl | rfl | rfl)
    · exact ⟨0, 0, outcomeSample, exists_exec_err .ok (by decide)⟩
    · exact ⟨0, 2, outcomeSample, exists_exec_err .badOrder (by decide)⟩
    · exact ⟨0, 0, _, exists_exec_badModulus _⟩
  · rintro (rfl | rfl | rfl | rfl)
    · exact ⟨0, 0, outcomeSample, exists_exec_err .ok (by decide)⟩
    · exact ⟨0, 1, outcomeSample, exists_exec_err .notInvertible (by decide)⟩
    · exact ⟨0, 2, outcomeSample, exists_exec_err .badOrder (by decide)⟩
    · exact ⟨0, 0, _, exists_exec_badModulus _⟩
  · rintro (rfl | rfl | rfl | rfl)
    · exact ⟨0, 0, 0, outcomeSample, exists_exec_err .ok (by decide)⟩
    · exact ⟨0, 0, 2, outcomeSample, exists_exec_err .dimensionMismatch (by decide)⟩
    · exact ⟨0, 2, 0, outcomeSample, exists_exec_err .badOrder (by decide)⟩
    · exact ⟨0, 0, 0, _, exists_exec_badModulus _⟩
  · rintro (rfl | rfl | rfl | rfl)
    · exact ⟨0, 0, 0, outcomeSample, exists_exec_err .ok (by decide)⟩
    · exact ⟨0, 0, 1, outcomeSample, exists_exec_err .sizeMismatch (by decide)⟩
    · exact ⟨0, 2, 0, outcomeSample, exists_exec_err .badOrder (by decide)⟩
    · exact ⟨0, 0, 0, _, exists_exec_badModulus _⟩
  · rintro ⟨w, why, s, t, hw, h, rfl⟩
    cases (executeCommand_illegal hw s).symm.trans h
    rfl
  · rintro rfl
    have hw : decode 0#32 = .illegal .reservedOpcode := by decide
    exact ⟨_, _, outcomeSample, _, hw, executeCommand_illegal hw _, rfl⟩

/-- Settles O21: `ERR` is overwritten, `CP` is kept by a failure other than `NOT_INVERTIBLE` and by the commands that
never write it, and a step that is no command and no reset leaves both. -/
theorem statusIsWrittenByCommandsAndResetOnly : Obligations.StatusIsWrittenByCommandsAndResetOnly := by
  refine ⟨fun i s t h => ⟨fun e => (exec_withErr i s e).trans h, ?_⟩, fun w why s hw => ?_, fun s t h hne => ?_⟩
  · cases i with
    | modinv d a =>
      refine exec_cp_of_ok_true h fun ht => ?_
      obtain ⟨_, _, _, _, _, _, rfl⟩ := execModinv_ok h ht
      rfl
    | mdet d a => exact execMdet_cp h
    | madj d a =>
      obtain ⟨_, _, _, _, _, hcp, _⟩ := matrixCommandFrame _ d a a s t (.inl rfl) h
      exact hcp nofun
    | minv d a =>
      refine exec_cp_of_ok_true h fun ht => ?_
      obtain ⟨_, _, _, _, _, _, rfl⟩ := execMinv_ok h ht
      rfl
    | mmul d a b =>
      obtain ⟨_, _, _, _, _, hcp, _⟩ := matrixCommandFrame _ d a b s t (.inr (.inr rfl)) h
      exact hcp nofun
    | mvmul d a b =>
      obtain ⟨_, _, _, _, _, hcp, _⟩ := vectorCommandFrame d a b s t h
      exact hcp
  · exact ⟨_, executeCommand_illegal hw s, rfl, rfl⟩
  · obtain ⟨_, rfl⟩ | ⟨rest, ⟨hp, _⟩ | ⟨idx, _, rfl⟩ | ⟨w, hp, _⟩ | ⟨idx, w, _, hr, hw⟩⟩ := step_cases h
    · simp at hne
    · exact ⟨rest, .inl hp⟩
    · simp at hne
    · exact ⟨rest, .inr ⟨w, hp⟩⟩
    · obtain ⟨herr, hcp, _⟩ := PortReg.write_status_modulus hr hw
      simp [herr, hcp] at hne

/-- Settles O27: the outcome does not look at the destination, and each command that ends `OK` writes one value computed
from the old state. -/
theorem destinationMayBeASource : Obligations.DestinationMayBeASource := fun _ _ _ _ _ _ _ =>
  ⟨fun h h' => err_eq_and_of_outcome_eq h h' rfl (execModinv_sameScalar h h'),
    fun h h' => err_eq_and_of_outcome_eq h h' rfl (execMadj_sameMatrix h h'),
    fun h h' => err_eq_and_of_outcome_eq h h' rfl (execMinv_sameMatrix h h'),
    fun h h' => err_eq_and_of_outcome_eq h h' rfl (execMmul_sameMatrix h h'),
    fun h h' => err_eq_and_of_outcome_eq h h' rfl (execMvmul_sameVector h h')⟩

/-- Settles O10: a step serves the first pending move, and there is none. -/
theorem idleStepKeepsAllState : Obligations.IdleStepKeepsAllState := fun _ => step_nil

end Sys2Proof.Machine
end
